-- ==== Sys2Proof/Word.lean ====
section
/-! DEFINITION. The value types of the machine: 00_scope.md R9 (u8, u12, u16), 10_state.md R21 (register indices). -/

namespace Sys2Proof

/-- A u8: a general register, a timer, a byte of memory, the immediate NN. -/
abbrev Byte := BitVec 8

/-- A u12: the field NNN (30_encoding.md R66). -/
abbrev Addr12 := BitVec 12

/-- A u16: an opcode, I, PC, a stack entry. -/
abbrev Word := BitVec 16

/-- The index of a general register, 0 to 15 (10_state.md R21: every index is valid). -/
abbrev RegIdx := Fin 16

/-- The index of VF, the register that doubles as the flag register (10_state.md R23). -/
abbrev vf : RegIdx := 15

/-- `zext_16` of a u12 (00_scope.md R10). -/
abbrev zext16 (a : Addr12) : Word := a.setWidth 16

end Sys2Proof
end

