-- ==== Sys2Proof/Syntax.lean ====
section
/-! DEFINITION. The instructions: one constructor per row of spec/opcode_table.json, in the table's order. -/

namespace Sys2Proof

/-- The 35 instruction forms (30_encoding.md R68), with the fields of 30_encoding.md R66: `x` and `y` select registers,
`n` is a count, `nn` an immediate byte, `nnn` a 12-bit address. -/
inductive Instr where
  /-- 00E0 CLS -/
  | cls
  /-- 00EE RET -/
  | ret
  /-- 0NNN SYS NNN, every 0NNN word but 00E0 and 00EE -/
  | sys (nnn : Addr12)
  /-- 1NNN JP NNN -/
  | jp (nnn : Addr12)
  /-- 2NNN CALL NNN -/
  | call (nnn : Addr12)
  /-- 3XNN SE Vx, NN -/
  | seImm (x : RegIdx) (nn : Byte)
  /-- 4XNN SNE Vx, NN -/
  | sneImm (x : RegIdx) (nn : Byte)
  /-- 5XY0 SE Vx, Vy -/
  | seReg (x y : RegIdx)
  /-- 6XNN LD Vx, NN -/
  | ldImm (x : RegIdx) (nn : Byte)
  /-- 7XNN ADD Vx, NN -/
  | addImm (x : RegIdx) (nn : Byte)
  /-- 8XY0 LD Vx, Vy -/
  | ldReg (x y : RegIdx)
  /-- 8XY1 OR Vx, Vy -/
  | or (x y : RegIdx)
  /-- 8XY2 AND Vx, Vy -/
  | and (x y : RegIdx)
  /-- 8XY3 XOR Vx, Vy -/
  | xor (x y : RegIdx)
  /-- 8XY4 ADD Vx, Vy -/
  | addReg (x y : RegIdx)
  /-- 8XY5 SUB Vx, Vy -/
  | sub (x y : RegIdx)
  /-- 8XY6 SHR Vx {, Vy} -/
  | shr (x y : RegIdx)
  /-- 8XY7 SUBN Vx, Vy -/
  | subn (x y : RegIdx)
  /-- 8XYE SHL Vx {, Vy} -/
  | shl (x y : RegIdx)
  /-- 9XY0 SNE Vx, Vy -/
  | sneReg (x y : RegIdx)
  /-- ANNN LD I, NNN -/
  | ldI (nnn : Addr12)
  /-- BNNN JP V0, NNN -/
  | jpOff (nnn : Addr12)
  /-- CXNN RND Vx, NN -/
  | rnd (x : RegIdx) (nn : Byte)
  /-- DXYN DRW Vx, Vy, N -/
  | drw (x y : RegIdx) (n : Fin 16)
  /-- EX9E SKP Vx -/
  | skp (x : RegIdx)
  /-- EXA1 SKNP Vx -/
  | sknp (x : RegIdx)
  /-- FX07 LD Vx, DT -/
  | ldFromDt (x : RegIdx)
  /-- FX0A LD Vx, K -/
  | ldKey (x : RegIdx)
  /-- FX15 LD DT, Vx -/
  | ldDt (x : RegIdx)
  /-- FX18 LD ST, Vx -/
  | ldSt (x : RegIdx)
  /-- FX1E ADD I, Vx -/
  | addI (x : RegIdx)
  /-- FX29 LD F, Vx -/
  | ldFont (x : RegIdx)
  /-- FX33 LD B, Vx -/
  | bcd (x : RegIdx)
  /-- FX55 LD [I], Vx -/
  | store (x : RegIdx)
  /-- FX65 LD Vx, [I] -/
  | load (x : RegIdx)
deriving DecidableEq, Repr

end Sys2Proof
end

