-- ==== Sys2Proof/Decode.lean ====
section
/-! DEFINITION. Decoding (30_encoding.md R65 to R70), total on any bytes and on any word, and the encoder written from the same
opcode map. -/

namespace Sys2Proof

/-- Why bytes are no instruction. -/
inductive DecodeReject where
  /-- fewer than the two bytes of an instruction (30_encoding.md R65) -/
  | truncated (bytes : Nat)
  /-- the word is none of the 35 forms (30_encoding.md R70) -/
  | unknown (op : Word)
deriving DecidableEq, Repr

/-! ### Fields (30_encoding.md R66) -/

/-- n1 = op[15:12], the family. -/
def fieldN1 (op : Word) : BitVec 4 := op.extractLsb' 12 4

/-- The four bits X = op[11:8]. -/
def nibbleX (op : Word) : BitVec 4 := op.extractLsb' 8 4

/-- The four bits Y = op[7:4]. -/
def nibbleY (op : Word) : BitVec 4 := op.extractLsb' 4 4

/-- The four bits N = op[3:0]. -/
def nibbleN (op : Word) : BitVec 4 := op.extractLsb' 0 4

/-- NN = op[7:0]. -/
def fieldNN (op : Word) : Byte := op.extractLsb' 0 8

/-- NNN = op[11:0]. -/
def fieldNNN (op : Word) : Addr12 := op.extractLsb' 0 12

/-- The four bits of an instruction that carry an index or a count, as a number 0 to 15. -/
def ofNibble (b : BitVec 4) : Fin 16 := ⟨b.toNat, b.isLt⟩

/-- The four bits that carry an index or a count. -/
def toNibble (k : Fin 16) : BitVec 4 := BitVec.ofNat 4 k.val

/-- X, the first register index. -/
def fieldX (op : Word) : RegIdx := ofNibble (nibbleX op)

/-- Y, the second register index. -/
def fieldY (op : Word) : RegIdx := ofNibble (nibbleY op)

/-- N, the count of DXYN. -/
def fieldN (op : Word) : Fin 16 := ofNibble (nibbleN op)

/-! ### Decoding -/

/-- The decode procedure of 30_encoding.md R69, but for one row: a 0NNN word other than 00E0 and 00EE gives the form `sys`
that the opcode map R68 lists, and its meaning raises the UnknownOpcode that R69 and R90 ask for (DEDUCED, log entry 3).
`classify` below is R69's own answer. -/
def decode (op : Word) : Except DecodeReject Instr :=
  match fieldN1 op with
  | 0x0#4 =>
    if op = 0x00E0#16 then .ok .cls
    else if op = 0x00EE#16 then .ok .ret
    else .ok (.sys (fieldNNN op))
  | 0x1#4 => .ok (.jp (fieldNNN op))
  | 0x2#4 => .ok (.call (fieldNNN op))
  | 0x3#4 => .ok (.seImm (fieldX op) (fieldNN op))
  | 0x4#4 => .ok (.sneImm (fieldX op) (fieldNN op))
  | 0x5#4 => if nibbleN op = 0#4 then .ok (.seReg (fieldX op) (fieldY op)) else .error (.unknown op)
  | 0x6#4 => .ok (.ldImm (fieldX op) (fieldNN op))
  | 0x7#4 => .ok (.addImm (fieldX op) (fieldNN op))
  | 0x8#4 =>
    match nibbleN op with
    | 0x0#4 => .ok (.ldReg (fieldX op) (fieldY op))
    | 0x1#4 => .ok (.or (fieldX op) (fieldY op))
    | 0x2#4 => .ok (.and (fieldX op) (fieldY op))
    | 0x3#4 => .ok (.xor (fieldX op) (fieldY op))
    | 0x4#4 => .ok (.addReg (fieldX op) (fieldY op))
    | 0x5#4 => .ok (.sub (fieldX op) (fieldY op))
    | 0x6#4 => .ok (.shr (fieldX op) (fieldY op))
    | 0x7#4 => .ok (.subn (fieldX op) (fieldY op))
    | 0xE#4 => .ok (.shl (fieldX op) (fieldY op))
    | _ => .error (.unknown op)
  | 0x9#4 => if nibbleN op = 0#4 then .ok (.sneReg (fieldX op) (fieldY op)) else .error (.unknown op)
  | 0xA#4 => .ok (.ldI (fieldNNN op))
  | 0xB#4 => .ok (.jpOff (fieldNNN op))
  | 0xC#4 => .ok (.rnd (fieldX op) (fieldNN op))
  | 0xD#4 => .ok (.drw (fieldX op) (fieldY op) (fieldN op))
  | 0xE#4 =>
    match fieldNN op with
    | 0x9E#8 => .ok (.skp (fieldX op))
    | 0xA1#8 => .ok (.sknp (fieldX op))
    | _ => .error (.unknown op)
  | 0xF#4 =>
    match fieldNN op with
    | 0x07#8 => .ok (.ldFromDt (fieldX op))
    | 0x0A#8 => .ok (.ldKey (fieldX op))
    | 0x15#8 => .ok (.ldDt (fieldX op))
    | 0x18#8 => .ok (.ldSt (fieldX op))
    | 0x1E#8 => .ok (.addI (fieldX op))
    | 0x29#8 => .ok (.ldFont (fieldX op))
    | 0x33#8 => .ok (.bcd (fieldX op))
    | 0x55#8 => .ok (.store (fieldX op))
    | 0x65#8 => .ok (.load (fieldX op))
    | _ => .error (.unknown op)
  | _ => .error (.unknown op)

/-- The opcode of two bytes, the byte at the lower address first: `op = Mem[PC] ++ Mem[PC+1]` (20_memory.md R47). -/
def wordOfBytes (hi lo : Byte) : Word := hi ++ lo

/-- Decoding of a stream of bytes: the first instruction and the rest. -/
def decodeBytes : List Byte → Except DecodeReject (Instr × List Byte)
  | [] => .error (.truncated 0)
  | [_] => .error (.truncated 1)
  | hi :: lo :: rest =>
    match decode (wordOfBytes hi lo) with
    | .ok i => .ok (i, rest)
    | .error e => .error e

/-! ### Encoding -/

/-- The word of an instruction, from the patterns of 30_encoding.md R68. -/
def encode : Instr → Word
  | .cls => 0x00E0#16
  | .ret => 0x00EE#16
  | .sys nnn => 0x0#4 ++ nnn
  | .jp nnn => 0x1#4 ++ nnn
  | .call nnn => 0x2#4 ++ nnn
  | .seImm x nn => 0x3#4 ++ toNibble x ++ nn
  | .sneImm x nn => 0x4#4 ++ toNibble x ++ nn
  | .seReg x y => 0x5#4 ++ toNibble x ++ toNibble y ++ 0x0#4
  | .ldImm x nn => 0x6#4 ++ toNibble x ++ nn
  | .addImm x nn => 0x7#4 ++ toNibble x ++ nn
  | .ldReg x y => 0x8#4 ++ toNibble x ++ toNibble y ++ 0x0#4
  | .or x y => 0x8#4 ++ toNibble x ++ toNibble y ++ 0x1#4
  | .and x y => 0x8#4 ++ toNibble x ++ toNibble y ++ 0x2#4
  | .xor x y => 0x8#4 ++ toNibble x ++ toNibble y ++ 0x3#4
  | .addReg x y => 0x8#4 ++ toNibble x ++ toNibble y ++ 0x4#4
  | .sub x y => 0x8#4 ++ toNibble x ++ toNibble y ++ 0x5#4
  | .shr x y => 0x8#4 ++ toNibble x ++ toNibble y ++ 0x6#4
  | .subn x y => 0x8#4 ++ toNibble x ++ toNibble y ++ 0x7#4
  | .shl x y => 0x8#4 ++ toNibble x ++ toNibble y ++ 0xE#4
  | .sneReg x y => 0x9#4 ++ toNibble x ++ toNibble y ++ 0x0#4
  | .ldI nnn => 0xA#4 ++ nnn
  | .jpOff nnn => 0xB#4 ++ nnn
  | .rnd x nn => 0xC#4 ++ toNibble x ++ nn
  | .drw x y n => 0xD#4 ++ toNibble x ++ toNibble y ++ toNibble n
  | .skp x => 0xE#4 ++ toNibble x ++ 0x9E#8
  | .sknp x => 0xE#4 ++ toNibble x ++ 0xA1#8
  | .ldFromDt x => 0xF#4 ++ toNibble x ++ 0x07#8
  | .ldKey x => 0xF#4 ++ toNibble x ++ 0x0A#8
  | .ldDt x => 0xF#4 ++ toNibble x ++ 0x15#8
  | .ldSt x => 0xF#4 ++ toNibble x ++ 0x18#8
  | .addI x => 0xF#4 ++ toNibble x ++ 0x1E#8
  | .ldFont x => 0xF#4 ++ toNibble x ++ 0x29#8
  | .bcd x => 0xF#4 ++ toNibble x ++ 0x33#8
  | .store x => 0xF#4 ++ toNibble x ++ 0x55#8
  | .load x => 0xF#4 ++ toNibble x ++ 0x65#8

/-- The high and the low byte of a word, in the order they lie in memory (20_memory.md R47). -/
def bytesOfWord (w : Word) : List Byte := [w.extractLsb' 8 8, w.extractLsb' 0 8]

/-! ### R69's own classification -/

/-- The forms that execute: all but SYS, 34 of the 35 (30_encoding.md R68, last paragraph). -/
def Instr.hasEffect : Instr → Bool
  | .sys _ => false
  | .cls | .ret | .jp _ | .call _ | .seImm _ _ | .sneImm _ _ | .seReg _ _ | .ldImm _ _ | .addImm _ _ | .ldReg _ _
  | .or _ _ | .and _ _ | .xor _ _ | .addReg _ _ | .sub _ _ | .shr _ _ | .subn _ _ | .shl _ _ | .sneReg _ _
  | .ldI _ | .jpOff _ | .rnd _ _ | .drw _ _ _ | .skp _ | .sknp _ | .ldFromDt _ | .ldKey _ | .ldDt _ | .ldSt _
  | .addI _ | .ldFont _ | .bcd _ | .store _ | .load _ => true

/-- 30_encoding.md R69 to the letter: a form with its fields, or `none` for Unknown. -/
def classify (op : Word) : Option Instr :=
  match decode op with
  | .ok i => if i.hasEffect then some i else none
  | .error _ => none

/-- What the decoder reads from an instruction whose bits are `w`, numbered as spec/opcode_table.json numbers them (one word, bit 0
its least significant bit); the word is laid out as the hardware stores it, high byte first. -/
def decodeTableWord (nbits w : Nat) : Option Instr :=
  match decodeBytes (bytesOfWord (BitVec.ofNat 16 (w % 2 ^ nbits))) with
  | .ok (i, _) => some i
  | .error _ => none

end Sys2Proof
end

