-- ==== Sys2Proof/Config.lean ====
section
/-! DEFINITION. What an implementation fixes: the sizes of 00_scope.md R6, the parameters of 00_scope.md R8, and the
one free value, the random byte of CXNN. -/

namespace Sys2Proof.Config

/-- MEM_SIZE (00_scope.md R6). -/
abbrev memSize : Nat := 4096

/-- LOAD_ADDR, where CONSTRUCT copies the ROM and where PC starts (00_scope.md R6). -/
abbrev loadAddr : Nat := 512

/-- MAX_ROM = MEM_SIZE - LOAD_ADDR (00_scope.md R6). -/
abbrev maxRom : Nat := 3584

/-- STACK_DEPTH (00_scope.md R6). -/
abbrev stackDepth : Nat := 16

/-- KEY_INDEX_MASK, fixed (00_scope.md R8). -/
abbrev keyIndexMask : Byte := 0x0F

/-- The length of the font image, 16 glyphs of 5 bytes (42_index_memory.md R121). -/
abbrev fontBytes : Nat := 80

/-- SHIFT_SOURCE: which register 8XY6 and 8XYE shift (00_scope.md R8). -/
inductive ShiftSource where
  | vx
  | vy
deriving DecidableEq, Repr

/-- LOADSTORE_I_INCREMENT: how much FX55 and FX65 add to I (00_scope.md R8). -/
inductive IIncrement where
  | none
  | xPlus1
  | x
deriving DecidableEq, Repr

/-- JUMP_OFFSET_REG: which register BNNN adds (00_scope.md R8). -/
inductive JumpOffsetReg where
  | v0
  | vx
deriving DecidableEq, Repr

/-- The parameters a model "takes as arguments" (00_scope.md R8). A value of this type is one machine.
DESIGN CHOICE (log entry 1): it stands in State, where no operation changes it, so that a claim about every state is a
claim about every value of the parameters. -/
structure Params where
  shiftSource      : ShiftSource
  logicResetsVf    : Bool
  loadStoreIncrement : IIncrement
  jumpOffsetReg    : JumpOffsetReg
  fontBase         : Addr12
  fontPreload      : Bool
  /-- RNG_SEED, an opaque value: it is only ever an argument of `Config.rand` (log entry 2). -/
  rngSeed          : Nat
deriving DecidableEq, Repr

/-- The defaults of 00_scope.md R8. The seed has none there: 0 is a DESIGN CHOICE (log entry 2). -/
def Params.default : Params where
  shiftSource := .vx
  logicResetsVf := false
  loadStoreIncrement := .none
  jumpOffsetReg := .v0
  fontBase := 0x000
  fontPreload := false
  rngSeed := 0

/-- FONT_BASE + 80 ≤ LOAD_ADDR (00_scope.md R8), the one condition R8 puts on a parameter. -/
abbrev Params.wf (p : Params) : Prop := p.fontBase.toNat + fontBytes ≤ loadAddr

/-- The `rand` oracle (00_scope.md R8, R15; 92_eei_decisions.md D22): the byte that draw number `draw` of a source seeded with
`seed` gives. A FREE VALUE: it has no body, so nothing can be proved of its value or of two draws' relation. -/
opaque rand (seed draw : Nat) : Byte

end Sys2Proof.Config
end

