-- ==== Sys2Proof/Machine/State.lean ====
section
/-! DEFINITION. The architectural state (10_state.md R20), the error kinds (60_exceptions.md R135), and the state after reset. -/

namespace Sys2Proof.Machine

/-- The error kinds of 60_exceptions.md R135. An operation that raises one changes no state (R141): the outcome carries none, and the
state of before is the state the host goes on with (`applyOp`). All are the spec's own; a stop on one is SAFE. -/
inductive Fault where
  /-- Raised by CONSTRUCT when the ROM is longer than 3584 bytes (60_exceptions.md R139). Safe. -/
  | romTooLarge
  /-- Raised by fetch, DXYN, FX33, FX55, FX65 when a byte at 4096 or above is touched (60_exceptions.md R136). Safe. -/
  | memoryOutOfBounds
  /-- Raised by decode, and by SYS, with the 16-bit word (60_exceptions.md R137, 40_control_flow.md R90). Safe. -/
  | unknownOpcode (op : Word)
  /-- Raised by 2NNN at SP = 16 (60_exceptions.md R138). Safe. -/
  | stackOverflow
  /-- Raised by 00EE at SP = 0 (60_exceptions.md R138). Safe. -/
  | stackUnderflow
  /-- Raised by PRESS and RELEASE when k > 15 (60_exceptions.md R140). No instruction raises it. Safe. -/
  | invalidKeyIndex
deriving DecidableEq, Repr

/-- Why an instruction has no meaning. No meaning of this model answers with a refusal. -/
inductive Refusal where
  /-- Raised by an arm of `exec` whose instruction is not modelled yet; no arm is one now. Safe. -/
  | notModelled (mnemonic : String)
deriving DecidableEq, Repr

/-- Mem: the listed bytes, in the canonical form `Memory.wf` (Machine/Ops.lean). -/
abbrev Memory := List Host.Cell

/-- FB: 32 rows of 64 pixels, row 0 at the top, column 0 at the left (10_state.md R31). -/
abbrev Framebuffer := Vector (Vector Bool 64) 32

/-- The state of the Interpreter (10_state.md R20). VF is `v[15]` (R23) and SP is the length of `stack` (R28). The last two fields are
the model's own: `rngDraws` counts the draws of the random source (log entry 2) and `params` holds the arguments of
00_scope.md R8 (log entry 1). -/
structure State where
  mem      : Memory
  v        : Vector Byte 16
  i        : Word
  pc       : Word
  /-- return addresses, most recent last (10_state.md R27) -/
  stack    : List Word
  dt       : Byte
  st       : Byte
  fb       : Framebuffer
  keys     : Vector Bool 16
  rngDraws : Nat
  params   : Config.Params
deriving DecidableEq, Repr

/-- SP, the current depth of the stack (10_state.md R28). -/
abbrev State.sp (s : State) : Nat := s.stack.length

/-- The framebuffer with no pixel set. -/
def Framebuffer.clear : Framebuffer := Vector.replicate 32 (Vector.replicate 64 false)

/-- The state after reset: CONSTRUCT of the empty ROM with every parameter at its default (70_reset_and_hazards.md R164;
10_state.md R20). -/
def State.reset : State where
  mem := []
  v := Vector.replicate 16 0
  i := 0
  pc := 0x200
  stack := []
  dt := 0
  st := 0
  fb := Framebuffer.clear
  keys := Vector.replicate 16 false
  rngDraws := 0
  params := Config.Params.default

end Sys2Proof.Machine
end

