-- ==== Sys2Proof/Machine/Ops.lean ====
section
/-! DEFINITION. The named operations over state and memory: the primitives of 00_scope.md R12 to R15, the stack (10_state.md R27), the
fetch (30_encoding.md R72), and the raising of an error (60_exceptions.md R141). -/

namespace Sys2Proof.Machine

/-- What an operation answers. -/
abbrev Result := Host.Outcome State Fault Refusal

/-! ### Errors (00_scope.md R14, 60_exceptions.md R141, R142) -/

/-- `raise E`: the current operation ends with the error. It saves nothing, jumps nowhere and discards every write, so the outcome
carries no state: the state of before stands. There is no return from an error (R142): the next STEP fetches at the same PC. -/
def raise (e : Fault) : Result := .fault e

/-- Goes on with the value of a checked operation, or raises its error. -/
def attempt {α : Type} (r : Except Fault α) (k : α → Result) : Result :=
  match r with
  | .ok a => k a
  | .error e => raise e

/-! ### Memory (20_memory.md R45 to R52) -/

/-- What an address that is not listed reads as: memory is "zero-filled" at construction (20_memory.md R45, R51). -/
def Memory.unlisted : Byte := 0

/-- The canonical form from address `lo` on: addresses strictly rising, all below MEM_SIZE, no entry that an unlisted address would
read as. -/
def Memory.wfFrom (lo : Nat) : Memory → Bool
  | [] => true
  | (a, b) :: rest => decide (lo ≤ a) && decide (a < Config.memSize) && b != Memory.unlisted && Memory.wfFrom (a + 1) rest

/-- The canonical form of a memory. -/
def Memory.wf (m : Memory) : Bool := Memory.wfFrom 0 m

/-- Mem[a] (00_scope.md R12). -/
def Memory.readByte : Memory → Nat → Byte
  | [], _ => Memory.unlisted
  | (k, b) :: rest, a => if k = a then b else Memory.readByte rest a

/-- Mem[a] <- b. Keeps the canonical form: the value an unlisted address reads as is not listed. -/
def Memory.writeByte : Memory → Nat → Byte → Memory
  | [], a, b => if b = Memory.unlisted then [] else [(a, b)]
  | (k, c) :: rest, a, b =>
    if a < k then
      if b = Memory.unlisted then (k, c) :: rest else (a, b) :: (k, c) :: rest
    else if a = k then
      if b = Memory.unlisted then rest else (a, b) :: rest
    else (k, c) :: Memory.writeByte rest a b

/-- The bytes Mem[a], Mem[a+1], ..., n of them. -/
def Memory.readBytes (m : Memory) (a n : Nat) : List Byte := (List.range n).map fun k => m.readByte (a + k)

/-- The bytes written at a, a+1, ... in that order. -/
def Memory.writeBytes (m : Memory) (a : Nat) : List Byte → Memory
  | [] => m
  | b :: bs => Memory.writeBytes (m.writeByte a b) (a + 1) bs

/-- An access to n bytes at a is in bounds; the sum is exact and never wraps (20_memory.md R49). -/
def inBounds (a n : Nat) : Bool := decide (a + n ≤ Config.memSize)

/-- `MemRead(a, n)` (00_scope.md R13): checks the whole range, then reads. -/
def memRead (m : Memory) (a n : Nat) : Except Fault (List Byte) :=
  if inBounds a n then .ok (m.readBytes a n) else .error .memoryOutOfBounds

/-- `MemWrite(a, n, bytes)` (00_scope.md R13): checks the whole range, then writes. -/
def memWrite (m : Memory) (a : Nat) (bytes : List Byte) : Except Fault Memory :=
  if inBounds a bytes.length then .ok (m.writeBytes a bytes) else .error .memoryOutOfBounds

/-! ### Registers (00_scope.md R12, R15) -/

/-- A number as an index 0 to 15, modulo 16. -/
def index16 (k : Nat) : Fin 16 := ⟨k % 16, Nat.mod_lt k (by decide)⟩

/-- V[x]. -/
def State.getV (s : State) (x : RegIdx) : Byte := s.v[x]

/-- V[x] <- b. -/
def State.setV (s : State) (x : RegIdx) (b : Byte) : State := { s with v := s.v.set x b }

/-- V[0] .. V[k-1], the registers written in ascending order from the list (42_index_memory.md R120). -/
def State.setRange (s : State) (k : Nat) : List Byte → State
  | [] => s
  | b :: bs => State.setRange (s.setV (index16 k) b) (k + 1) bs

/-- I <- v. -/
def State.setI (s : State) (v : Word) : State := { s with i := v }

/-- PC <- target. A target is never checked when it is written (40_control_flow.md R88, 10_state.md R26). -/
def State.setPc (s : State) (target : Word) : State := { s with pc := target }

/-- `advance(k)`: PC <- (PC + k) mod 2^16 (00_scope.md R15). -/
def State.advance (s : State) (k : Word) : State := s.setPc (s.pc + k)

/-- DT <- v. -/
def State.setDt (s : State) (v : Byte) : State := { s with dt := v }

/-- ST <- v. -/
def State.setSt (s : State) (v : Byte) : State := { s with st := v }

/-- The call stack replaced. Only push and pop call it (10_state.md R27). -/
def State.setStack (s : State) (stack : List Word) : State := { s with stack := stack }

/-- Memory replaced by what a MemWrite gave. -/
def State.setMem (s : State) (m : Memory) : State := { s with mem := m }

/-- The framebuffer replaced by what a draw or a clear gave. -/
def State.setFb (s : State) (fb : Framebuffer) : State := { s with fb := fb }

/-- Key[k] (00_scope.md R12). -/
def State.key (s : State) (k : Fin 16) : Bool := s.keys[k]

/-- Key[k] <- pressed. Only the host's PRESS and RELEASE call it (10_state.md R32). -/
def State.setKey (s : State) (k : Fin 16) (pressed : Bool) : State := { s with keys := s.keys.set k pressed }

/-- The end of an ordinary instruction: advance(2) (30_encoding.md R75). -/
def done (s : State) : Result := .next (s.advance 2)

/-- The end of a skip: advance(4) when the condition holds, else advance(2) (40_control_flow.md R89). -/
def skipIf (c : Bool) (s : State) : Result := .next (s.advance (if c then 4 else 2))

/-! ### The call stack (10_state.md R27, R28) -/

/-- Pushes a return address, or StackOverflow when 16 are there. -/
def State.push (s : State) (a : Word) : Except Fault State :=
  if Config.stackDepth ≤ s.sp then .error .stackOverflow else .ok (s.setStack (s.stack ++ [a]))

/-- Pops the most recent return address, or StackUnderflow when there is none. -/
def State.pop (s : State) : Except Fault (Word × State) :=
  match s.stack.getLast? with
  | none => .error .stackUnderflow
  | some a => .ok (a, s.setStack s.stack.dropLast)

/-! ### The framebuffer and the sprite unit (10_state.md R31, 43_display.md R123, R124) -/

/-- A column, wrapped at the right edge: modulo 64 (43_display.md R123). -/
def wrapColumn (x : Nat) : Fin 64 := ⟨x % 64, Nat.mod_lt x (by decide)⟩

/-- A row, wrapped at the bottom edge: modulo 32 (43_display.md R123). -/
def wrapRow (y : Nat) : Fin 32 := ⟨y % 32, Nat.mod_lt y (by decide)⟩

/-- FB[x, y]. -/
def Framebuffer.get (fb : Framebuffer) (x : Fin 64) (y : Fin 32) : Bool := fb[y][x]

/-- FB[x, y] <- p. -/
def Framebuffer.set (fb : Framebuffer) (x : Fin 64) (y : Fin 32) (p : Bool) : Framebuffer :=
  Vector.set fb y (Vector.set fb[y] x p)

/-- One set sprite bit: the pixel is inverted, and the collision flag rises when it was set. -/
def drawPixel (acc : Framebuffer × Bool) (x : Fin 64) (y : Fin 32) : Framebuffer × Bool :=
  (acc.1.set x y (!acc.1.get x y), acc.2 || acc.1.get x y)

/-- Columns 0 to 7 of one sprite row, bit 7 at column 0, wrapping at the right edge. -/
def drawRow (x0 y : Nat) (row : Byte) (acc : Framebuffer × Bool) : Framebuffer × Bool :=
  (List.range 8).foldl
    (fun acc k => if row.getLsbD (7 - k) then drawPixel acc (wrapColumn (x0 + k)) (wrapRow y) else acc) acc

/-- The rows of a sprite downward from y, wrapping at the bottom edge. -/
def drawRows (x0 y : Nat) : List Byte → Framebuffer × Bool → Framebuffer × Bool
  | [], acc => acc
  | row :: rows, acc => drawRows x0 (y + 1) rows (drawRow x0 y row acc)

/-- The rows of a sprite of n bytes at I: no memory is read when n = 0 (43_display.md R123). -/
def State.spriteRows (s : State) (n : Nat) : Except Fault (List Byte) :=
  if n = 0 then .ok [] else memRead s.mem s.i.toNat n

/-! ### The random source (00_scope.md R15) -/

/-- The byte the next `Rand()` gives: a free value (log entry 2). -/
def State.nextRand (s : State) : Byte := Config.rand s.params.rngSeed s.rngDraws

/-- One draw is taken from the random source. -/
def State.afterRand (s : State) : State := { s with rngDraws := s.rngDraws + 1 }

/-! ### Fetch (30_encoding.md R72) -/

/-- The opcode at PC, big-endian; MemoryOutOfBounds iff PC + 2 > 4096. -/
def State.fetch (s : State) : Except Fault Word :=
  match memRead s.mem s.pc.toNat 2 with
  | .ok [hi, lo] => .ok (wordOfBytes hi lo)
  | .ok _ => .error .memoryOutOfBounds
  | .error e => .error e

/-- The two bytes of `w` stored where the next fetch reads them; nothing when that lies past the end of memory (log entry 7). -/
def State.storeAtPc (s : State) (w : Word) : State :=
  match memWrite s.mem s.pc.toNat (bytesOfWord w) with
  | .ok m => s.setMem m
  | .error _ => s

end Sys2Proof.Machine
end

