-- ==== Sys2Proof/Machine/Flags.lean ====
section
/-! DEFINITION. The values of VF as a flag (10_state.md R23), and the order in which a result and its flag are written. -/

namespace Sys2Proof.Machine

/-- A flag as the byte VF takes: 1 or 0. -/
def flagByte (c : Bool) : Byte := if c then 1 else 0

/-- VF of 8XY4: the unwrapped sum exceeds 255 (41_alu.md R105). -/
def carry (a b : Byte) : Bool := decide (255 < a.toNat + b.toNat)

/-- VF of 8XY5 and 8XY7: no borrow, the minuend is at least the subtrahend (41_alu.md R106, R108). -/
def notBorrow (minuend subtrahend : Byte) : Bool := decide (subtrahend.toNat ≤ minuend.toNat)

/-- VF of 8XY6: the bit shifted out to the right (41_alu.md R107). -/
def shiftedOutRight (b : Byte) : Bool := b.getLsbD 0

/-- VF of 8XYE: the bit shifted out to the left (41_alu.md R109). -/
def shiftedOutLeft (b : Byte) : Bool := b.getLsbD 7

/-- VF <- flag. -/
def State.setFlag (s : State) (c : Bool) : State := s.setV vf (flagByte c)

/-- V[X] <- result, then VF <- flag: the flag is written last and wins when X = 0xF (10_state.md R23). -/
def State.setResultFlag (s : State) (x : RegIdx) (result : Byte) (c : Bool) : State := (s.setV x result).setFlag c

/-- V[X] <- result, then VF <- 0 when LOGIC_RESETS_VF (41_alu.md R102 to R104). -/
def State.setLogic (s : State) (x : RegIdx) (result : Byte) : State :=
  if s.params.logicResetsVf then (s.setV x result).setV vf 0 else s.setV x result

end Sys2Proof.Machine
end

