-- ==== Sys2Proof/Machine/Operands.lean ====
section
/-! DEFINITION. The operand forms that are more than a register or an immediate: those a parameter of 00_scope.md R8 chooses, the key
index, the digits of FX33, the register range of FX55. -/

namespace Sys2Proof.Machine

/-- The byte that 8XY6 and 8XYE shift (41_alu.md R107, R109; parameter SHIFT_SOURCE). -/
def State.shiftOperand (s : State) (x y : RegIdx) : Byte :=
  match s.params.shiftSource with
  | .vx => s.getV x
  | .vy => s.getV y

/-- The offset that BNNN adds: V[0], or V[X] with X = NNN[11:8] (40_control_flow.md R98; parameter JUMP_OFFSET_REG). -/
def State.jumpOffset (s : State) (nnn : Addr12) : Byte :=
  match s.params.jumpOffsetReg with
  | .v0 => s.getV 0
  | .vx => s.getV (ofNibble (nnn.extractLsb' 8 4))

/-- The low four bits of a byte as an index: `V[X] & 0x0F` (44_keypad_timers.md R128, 42_index_memory.md R117). -/
def lowNibble (b : Byte) : Fin 16 := index16 (b &&& Config.keyIndexMask).toNat

/-- The address FX29 computes, FONT_BASE + 5 * d (42_index_memory.md R117). -/
def State.fontAddress (s : State) (d : Fin 16) : Word := zext16 s.params.fontBase + BitVec.ofNat 16 (5 * d.val)

/-- The three decimal digits of a byte, hundreds first (42_index_memory.md R118). -/
def bcdDigits (v : Byte) : List Byte :=
  [BitVec.ofNat 8 (v.toNat / 100), BitVec.ofNat 8 (v.toNat / 10 % 10), BitVec.ofNat 8 (v.toNat % 10)]

/-- [V[0], ..., V[X]] (42_index_memory.md R119). -/
def State.regRange (s : State) (x : RegIdx) : List Byte := (List.range (x.val + 1)).map fun k => s.getV (index16 k)

/-- I after FX55 and FX65 (42_index_memory.md R119, R120; parameter LOADSTORE_I_INCREMENT). -/
def State.rangeEndI (s : State) (x : RegIdx) : Word :=
  match s.params.loadStoreIncrement with
  | .none => s.i
  | .xPlus1 => s.i + BitVec.ofNat 16 (x.val + 1)
  | .x => s.i + BitVec.ofNat 16 x.val

/-- The least pressed key, if some key is (44_keypad_timers.md R130). -/
def State.leastKey (s : State) : Option (Fin 16) := (List.finRange 16).find? fun k => s.key k

end Sys2Proof.Machine
end

