-- ==== Sys2Proof/Machine/Alu.lean ====
section
/-! DEFINITION. The register and ALU instructions (41_alu.md). Each reads its operands, writes the result, then VF, then
advances by 2; none raises an error. -/

namespace Sys2Proof.Machine

/-- 6XNN LD Vx, NN (41_alu.md R99). -/
def execLdImm (x : RegIdx) (nn : Byte) (s : State) : Result := done (s.setV x nn)

/-- 7XNN ADD Vx, NN (41_alu.md R100): no carry flag. -/
def execAddImm (x : RegIdx) (nn : Byte) (s : State) : Result := done (s.setV x (s.getV x + nn))

/-- 8XY0 LD Vx, Vy (41_alu.md R101). -/
def execLdReg (x y : RegIdx) (s : State) : Result := done (s.setV x (s.getV y))

/-- 8XY1 OR Vx, Vy (41_alu.md R102). -/
def execOr (x y : RegIdx) (s : State) : Result := done (s.setLogic x (s.getV x ||| s.getV y))

/-- 8XY2 AND Vx, Vy (41_alu.md R103). -/
def execAnd (x y : RegIdx) (s : State) : Result := done (s.setLogic x (s.getV x &&& s.getV y))

/-- 8XY3 XOR Vx, Vy (41_alu.md R104). -/
def execXor (x y : RegIdx) (s : State) : Result := done (s.setLogic x (s.getV x ^^^ s.getV y))

/-- 8XY4 ADD Vx, Vy (41_alu.md R105). -/
def execAddReg (x y : RegIdx) (s : State) : Result :=
  done (s.setResultFlag x (s.getV x + s.getV y) (carry (s.getV x) (s.getV y)))

/-- 8XY5 SUB Vx, Vy (41_alu.md R106). -/
def execSub (x y : RegIdx) (s : State) : Result :=
  done (s.setResultFlag x (s.getV x - s.getV y) (notBorrow (s.getV x) (s.getV y)))

/-- 8XY6 SHR Vx {, Vy} (41_alu.md R107). -/
def execShr (x y : RegIdx) (s : State) : Result :=
  done (s.setResultFlag x (s.shiftOperand x y >>> 1) (shiftedOutRight (s.shiftOperand x y)))

/-- 8XY7 SUBN Vx, Vy (41_alu.md R108). -/
def execSubn (x y : RegIdx) (s : State) : Result :=
  done (s.setResultFlag x (s.getV y - s.getV x) (notBorrow (s.getV y) (s.getV x)))

/-- 8XYE SHL Vx {, Vy} (41_alu.md R109). -/
def execShl (x y : RegIdx) (s : State) : Result :=
  done (s.setResultFlag x (s.shiftOperand x y <<< 1) (shiftedOutLeft (s.shiftOperand x y)))

/-- CXNN with a given draw: V[X] <- draw & NN (41_alu.md R110). -/
def rndWith (draw : Byte) (x : RegIdx) (nn : Byte) (s : State) : Result := done (s.setV x (draw &&& nn))

/-- CXNN RND Vx, NN (41_alu.md R110): one draw of the free value, then the mask. -/
def execRnd (x : RegIdx) (nn : Byte) (s : State) : Result := rndWith s.nextRand x nn s.afterRand

end Sys2Proof.Machine
end

