-- ==== Sys2Proof/Machine/ControlFlow.lean ====
section
/-! DEFINITION. The control flow instructions (40_control_flow.md). -/

namespace Sys2Proof.Machine

/-- 0NNN SYS NNN (40_control_flow.md R90): UnknownOpcode with the instruction's own word, always. -/
def execSys (nnn : Addr12) (_s : State) : Result := raise (.unknownOpcode (encode (.sys nnn)))

/-- 00EE RET (40_control_flow.md R91): the popped address, as it is. -/
def execRet (s : State) : Result := attempt s.pop fun p => .next (p.2.setPc p.1)

/-- 1NNN JP NNN (40_control_flow.md R92). -/
def execJp (nnn : Addr12) (s : State) : Result := .next (s.setPc (zext16 nnn))

/-- 2NNN CALL NNN (40_control_flow.md R93): pushes PC + 2. -/
def execCall (nnn : Addr12) (s : State) : Result := attempt (s.push (s.pc + 2)) fun t => .next (t.setPc (zext16 nnn))

/-- 3XNN SE Vx, NN (40_control_flow.md R94). -/
def execSeImm (x : RegIdx) (nn : Byte) (s : State) : Result := skipIf (s.getV x == nn) s

/-- 4XNN SNE Vx, NN (40_control_flow.md R95). -/
def execSneImm (x : RegIdx) (nn : Byte) (s : State) : Result := skipIf (s.getV x != nn) s

/-- 5XY0 SE Vx, Vy (40_control_flow.md R96). -/
def execSeReg (x y : RegIdx) (s : State) : Result := skipIf (s.getV x == s.getV y) s

/-- 9XY0 SNE Vx, Vy (40_control_flow.md R97). -/
def execSneReg (x y : RegIdx) (s : State) : Result := skipIf (s.getV x != s.getV y) s

/-- BNNN JP V0, NNN (40_control_flow.md R98): the sum is not reduced modulo 0x1000. -/
def execJpOff (nnn : Addr12) (s : State) : Result := .next (s.setPc (zext16 nnn + (s.jumpOffset nnn).setWidth 16))

end Sys2Proof.Machine
end

