-- ==== Sys2Proof/Machine/Display.lean ====
section
/-! DEFINITION. The display instructions and the sprite-collision unit (43_display.md). -/

namespace Sys2Proof.Machine

/-- 00E0 CLS (43_display.md R122). -/
def execCls (s : State) : Result := done (s.setFb Framebuffer.clear)

/-- DXYN DRW Vx, Vy, N (43_display.md R123): the coordinates are reduced modulo the display's size, every pixel wraps, and VF takes the
collision flag. -/
def execDrw (x y : RegIdx) (n : Fin 16) (s : State) : Result :=
  attempt (s.spriteRows n.val) fun rows =>
    let drawn := drawRows ((s.getV x).toNat % 64) ((s.getV y).toNat % 32) rows (s.fb, false)
    done ((s.setFb drawn.1).setFlag drawn.2)

end Sys2Proof.Machine
end

