-- ==== Sys2Proof/Machine/IndexMemory.lean ====
section
/-! DEFINITION. The index register and memory instructions (42_index_memory.md). -/

namespace Sys2Proof.Machine

/-- ANNN LD I, NNN (42_index_memory.md R115). -/
def execLdI (nnn : Addr12) (s : State) : Result := done (s.setI (zext16 nnn))

/-- FX1E ADD I, Vx (42_index_memory.md R116): modulo 2^16, VF not written. -/
def execAddI (x : RegIdx) (s : State) : Result := done (s.setI (s.i + (s.getV x).setWidth 16))

/-- FX29 LD F, Vx (42_index_memory.md R117). -/
def execLdFont (x : RegIdx) (s : State) : Result := done (s.setI (s.fontAddress (lowNibble (s.getV x))))

/-- FX33 LD B, Vx (42_index_memory.md R118). -/
def execBcd (x : RegIdx) (s : State) : Result :=
  attempt (memWrite s.mem s.i.toNat (bcdDigits (s.getV x))) fun m => done (s.setMem m)

/-- FX55 LD [I], Vx (42_index_memory.md R119). -/
def execStore (x : RegIdx) (s : State) : Result :=
  attempt (memWrite s.mem s.i.toNat (s.regRange x)) fun m => done ((s.setMem m).setI (s.rangeEndI x))

/-- FX65 LD Vx, [I] (42_index_memory.md R120). -/
def execLoad (x : RegIdx) (s : State) : Result :=
  attempt (memRead s.mem s.i.toNat (x.val + 1)) fun bytes => done ((s.setRange 0 bytes).setI (s.rangeEndI x))

end Sys2Proof.Machine
end

