-- ==== Sys2Proof/Machine/KeypadTimers.lean ====
section
/-! DEFINITION. The keypad and timer instructions (44_keypad_timers.md). -/

namespace Sys2Proof.Machine

/-- EX9E SKP Vx (44_keypad_timers.md R128). -/
def execSkp (x : RegIdx) (s : State) : Result := skipIf (s.key (lowNibble (s.getV x))) s

/-- EXA1 SKNP Vx (44_keypad_timers.md R129). -/
def execSknp (x : RegIdx) (s : State) : Result := skipIf (!s.key (lowNibble (s.getV x))) s

/-- FX0A LD Vx, K (44_keypad_timers.md R130): with no key pressed the step completes and changes nothing. -/
def execLdKey (x : RegIdx) (s : State) : Result :=
  match s.leastKey with
  | some k => done (s.setV x (BitVec.ofNat 8 k.val))
  | none => .next s

/-- FX07 LD Vx, DT (44_keypad_timers.md R131). -/
def execLdFromDt (x : RegIdx) (s : State) : Result := done (s.setV x s.dt)

/-- FX15 LD DT, Vx (44_keypad_timers.md R132). -/
def execLdDt (x : RegIdx) (s : State) : Result := done (s.setDt (s.getV x))

/-- FX18 LD ST, Vx (44_keypad_timers.md R133). -/
def execLdSt (x : RegIdx) (s : State) : Result := done (s.setSt (s.getV x))

end Sys2Proof.Machine
end

