-- ==== Sys2Proof/Machine/Step.lean ====
section
/-! DEFINITION. The step cycle (30_encoding.md R71): fetch, decode, execute. -/

namespace Sys2Proof.Machine

/-- STEP (30_encoding.md R71). The first phase that fails is the one reported (60_exceptions.md R143). -/
def step (s : State) : Host.Outcome State Fault Refusal :=
  attempt s.fetch fun op =>
    match decode op with
    | .ok i => exec i s
    | .error _ => raise (.unknownOpcode op)

/-- `s` with an instruction's word stored where `step` fetches: the word's bits as spec/opcode_table.json numbers them. It stands for the
ROM image that CONSTRUCT would have loaded there (log entry 7). -/
def State.withFetchWord (s : State) (nbits w : Nat) : State := s.storeAtPc (BitVec.ofNat 16 (w % 2 ^ nbits))

end Sys2Proof.Machine
end

