-- ==== Sys2Proof/Machine/HostOps.lean ====
section
/-! DEFINITION. The operations the host invokes (60_exceptions.md R150 to R158, 70_reset_and_hazards.md R164): CONSTRUCT, STEP, TICK, PRESS,
RELEASE, READ_FB, SOUND_ACTIVE, and a run of them. They never overlap (00_scope.md R5), so a run is a list (log entry 5). -/

namespace Sys2Proof.Machine

/-- The numeric code of an error kind (60_exceptions.md R135). A label only. -/
def Fault.code : Fault → Nat
  | .romTooLarge => 0
  | .memoryOutOfBounds => 1
  | .unknownOpcode _ => 2
  | .stackOverflow => 3
  | .stackUnderflow => 4
  | .invalidKeyIndex => 5

/-- The hex-digit font image, 5 bytes per digit, 0 to F (42_index_memory.md R121). -/
def fontImage : List Byte :=
  [0xF0, 0x90, 0x90, 0x90, 0xF0] ++ [0x20, 0x60, 0x20, 0x20, 0x70] ++ [0xF0, 0x10, 0xF0, 0x80, 0xF0] ++
  [0xF0, 0x10, 0xF0, 0x10, 0xF0] ++ [0x90, 0x90, 0xF0, 0x10, 0x10] ++ [0xF0, 0x80, 0xF0, 0x10, 0xF0] ++
  [0xF0, 0x80, 0xF0, 0x90, 0xF0] ++ [0xF0, 0x10, 0x20, 0x40, 0x40] ++ [0xF0, 0x90, 0xF0, 0x90, 0xF0] ++
  [0xF0, 0x90, 0xF0, 0x10, 0xF0] ++ [0xF0, 0x90, 0xF0, 0x90, 0x90] ++ [0xE0, 0x90, 0xE0, 0x90, 0xE0] ++
  [0xF0, 0x80, 0x80, 0x80, 0xF0] ++ [0xE0, 0x90, 0x90, 0x90, 0xE0] ++ [0xF0, 0x80, 0xF0, 0x80, 0xF0] ++
  [0xF0, 0x80, 0xF0, 0x80, 0x80]

/-- The memory CONSTRUCT leaves: zero, the font when FONT_PRELOAD, then the ROM at 0x200 (70_reset_and_hazards.md R164). -/
def constructMemory (p : Config.Params) (rom : List Byte) : Memory :=
  Memory.writeBytes (if p.fontPreload then Memory.writeBytes [] p.fontBase.toNat fontImage else []) Config.loadAddr rom

/-- CONSTRUCT(rom), the only reset (70_reset_and_hazards.md R164, R166), for a machine with the parameters `p`. -/
def construct (p : Config.Params) (rom : List Byte) : Except Fault State :=
  if Config.maxRom < rom.length then .error .romTooLarge
  else .ok { State.reset with mem := constructMemory p rom, params := p }

/-- TICK: both timers one down, each stopping at 0 (60_exceptions.md R150). -/
def tick (s : State) : State :=
  (s.setDt (if s.dt = 0 then 0 else s.dt - 1)).setSt (if s.st = 0 then 0 else s.st - 1)

/-- PRESS(k) (60_exceptions.md R152). -/
def press (k : Nat) (s : State) : Except Fault State :=
  if h : k < 16 then .ok (s.setKey ⟨k, h⟩ true) else .error .invalidKeyIndex

/-- RELEASE(k) (60_exceptions.md R153). -/
def release (k : Nat) (s : State) : Except Fault State :=
  if h : k < 16 then .ok (s.setKey ⟨k, h⟩ false) else .error .invalidKeyIndex

/-- READ_FB: 2048 booleans, row-major, element y*64 + x is FB[x, y] (60_exceptions.md R155). -/
def readFb (s : State) : Vector Bool 2048 :=
  Vector.ofFn fun j => s.fb.get (wrapColumn j.val) (wrapRow (j.val / 64))

/-- SOUND_ACTIVE: ST > 0 (60_exceptions.md R157). -/
def soundActive (s : State) : Bool := s.st != 0

/-- An operation on an Interpreter (60_exceptions.md R158). -/
inductive HostOp where
  | step
  | tick
  | press (k : Nat)
  | release (k : Nat)
  | readFb
  | soundActive
deriving DecidableEq, Repr

/-- What the core returns to the host (60_exceptions.md R158). -/
inductive OpResult where
  /-- TICK returns nothing -/
  | unit
  | ok
  | err (e : Fault)
  /-- no operation returns it: no step is refused -/
  | refused (r : Refusal)
  | pixels (p : Vector Bool 2048)
  | active (b : Bool)
deriving DecidableEq, Repr

/-- The host's view of a fallible operation: the new state and Ok, or the state of before and the error (60_exceptions.md R141). -/
def settle (s : State) : Except Fault State → State × OpResult
  | .ok t => (t, .ok)
  | .error e => (s, .err e)

/-- The host's view of a step: an error leaves the Interpreter usable and its state as it was (60_exceptions.md R141, R142). -/
def settleStep (s : State) : Host.Outcome State Fault Refusal → State × OpResult
  | .next t => (t, .ok)
  | .fault e => (s, .err e)
  | .refused r => (s, .refused r)

/-- One operation: the state after it and what it returns. -/
def applyOp (op : HostOp) (s : State) : State × OpResult :=
  match op with
  | .step => settleStep s (step s)
  | .tick => (tick s, .unit)
  | .press k => settle s (press k s)
  | .release k => settle s (release k s)
  | .readFb => (s, .pixels (readFb s))
  | .soundActive => (s, .active (soundActive s))

/-- A run: the state after a finite sequence of operations (60_exceptions.md R159). -/
def runOps : List HostOp → State → State
  | [], s => s
  | op :: ops, s => runOps ops (applyOp op s).1

end Sys2Proof.Machine
end

