-- ==== Sys2Proof/Safety.lean ====
section
/-! DEFINITION. The terms claims use: what a safe run is, the invariant of the machine, the states a host can reach, what an instruction
may write, and where a sprite's bits fall. -/

namespace Sys2Proof.Machine

/-- A STEP that returns Ok. -/
def StepSafe (s : State) : Prop := ∃ t, step s = .next t

/-- A run in which no operation returns an error. -/
def SafeRun : List HostOp → State → Prop
  | [], _ => True
  | op :: ops, s => (∀ e, (applyOp op s).2 ≠ .err e) ∧ SafeRun ops (applyOp op s).1

/-- What holds of every state a host can reach. -/
structure State.Inv (s : State) : Prop where
  /-- memory is in its canonical form, every listed address below 4096 (20_memory.md R49) -/
  memory : s.mem.wf = true
  /-- at most 16 return addresses (10_state.md R27) -/
  depth : s.stack.length ≤ 16
  /-- a pushed address is at most 0x1000 (40_control_flow.md R93) -/
  returns : ∀ a ∈ s.stack, a.toNat ≤ 0x1000
  /-- the greatest PC any instruction leaves is 0x0FFF + 0xFF (40_control_flow.md R98) -/
  pcBound : s.pc.toNat ≤ 0x10FE
  /-- FONT_BASE + 80 ≤ 0x200 (00_scope.md R8) -/
  parameters : s.params.wf

/-- The states a host can reach: CONSTRUCT, then any operations in any order (60_exceptions.md R158, R159). -/
inductive Reachable : State → Prop where
  | construct (p : Config.Params) (rom : List Byte) (s : State) (wf : p.wf) (built : construct p rom = .ok s) : Reachable s
  | op (o : HostOp) (s : State) (before : Reachable s) : Reachable (applyOp o s).1

/-- The parts of the state that an instruction may write besides PC. -/
structure Writes where
  regs  : RegIdx → Bool := fun _ => false
  i     : Bool := false
  stack : Bool := false
  dt    : Bool := false
  st    : Bool := false
  fb    : Bool := false
  draws : Bool := false
  bytes : Nat → Bool := fun _ => false

/-- From `s` to `t` nothing changed but PC and what `w` allows: the registers it names, I, the stack, the timers, the framebuffer, the
random source, the bytes of memory at the addresses it names. The keypad and the parameters never change. -/
structure Frame (w : Writes) (s t : State) : Prop where
  regs   : ∀ r, w.regs r = false → t.getV r = s.getV r
  i      : w.i = false → t.i = s.i
  stack  : w.stack = false → t.stack = s.stack
  dt     : w.dt = false → t.dt = s.dt
  st     : w.st = false → t.st = s.st
  fb     : w.fb = false → t.fb = s.fb
  draws  : w.draws = false → t.rngDraws = s.rngDraws
  keys   : t.keys = s.keys
  params : t.params = s.params
  bytes  : ∀ a, w.bytes a = false → t.mem.readByte a = s.mem.readByte a

/-- STEP fetches and decodes the instruction `i` in the state `s` (30_encoding.md R71). -/
def Fetched (s : State) (i : Instr) : Prop := ∃ op, s.fetch = .ok op ∧ decode op = .ok i

/-- The illegal words, as 30_encoding.md R70 lists them. -/
abbrev IllegalWord (op : Word) : Prop :=
  (op.toNat ≤ 0x0FFF ∧ op.toNat ≠ 0x00E0 ∧ op.toNat ≠ 0x00EE) ∨
  (op.toNat / 4096 = 0x5 ∧ op.toNat % 16 ≠ 0) ∨
  (op.toNat / 4096 = 0x8 ∧ op.toNat % 16 ∈ [0x8, 0x9, 0xA, 0xB, 0xC, 0xD, 0xF]) ∨
  (op.toNat / 4096 = 0x9 ∧ op.toNat % 16 ≠ 0) ∨
  (op.toNat / 4096 = 0xE ∧ op.toNat % 256 ∉ [0x9E, 0xA1]) ∨
  (op.toNat / 4096 = 0xF ∧ op.toNat % 256 ∉ [0x07, 0x0A, 0x15, 0x18, 0x1E, 0x29, 0x33, 0x55, 0x65])

/-- PC after a successful execution, as the table of 30_encoding.md R75 gives it. An instruction that raises an error has no row of its own:
its entry here is PC, which the table's last row leaves unchanged. -/
def pcAfter (i : Instr) (s : State) : Word :=
  match i with
  | .cls | .ldImm _ _ | .addImm _ _ | .ldReg _ _ | .or _ _ | .and _ _ | .xor _ _ | .addReg _ _ | .sub _ _ | .shr _ _
  | .subn _ _ | .shl _ _ | .ldI _ | .rnd _ _ | .drw _ _ _ | .ldFromDt _ | .ldDt _ | .ldSt _ | .addI _ | .ldFont _
  | .bcd _ | .store _ | .load _ => s.pc + 2
  | .seImm x nn => s.pc + if s.getV x = nn then 4 else 2
  | .sneImm x nn => s.pc + if s.getV x ≠ nn then 4 else 2
  | .seReg x y => s.pc + if s.getV x = s.getV y then 4 else 2
  | .sneReg x y => s.pc + if s.getV x ≠ s.getV y then 4 else 2
  | .skp x => s.pc + if s.key (lowNibble (s.getV x)) = true then 4 else 2
  | .sknp x => s.pc + if s.key (lowNibble (s.getV x)) = false then 4 else 2
  | .jp nnn => zext16 nnn
  | .call nnn => zext16 nnn
  | .jpOff nnn =>
    zext16 nnn + match s.params.jumpOffsetReg with
      | .v0 => (s.getV 0).setWidth 16
      | .vx => (s.getV (ofNibble (nnn.extractLsb' 8 4))).setWidth 16
  | .ret => s.stack.getLastD s.pc
  | .ldKey _ => s.pc + if ∃ k, s.key k = true then 2 else 0
  | .sys _ => s.pc

/-- The column "writes V" of the table of 10_state.md R21: the registers an instruction may write, for a setting of the parameters. -/
def mayWriteV (i : Instr) (p : Config.Params) (r : RegIdx) : Prop :=
  match i with
  | .cls | .ret | .sys _ | .jp _ | .call _ | .seImm _ _ | .sneImm _ _ | .seReg _ _ | .sneReg _ _ | .ldI _ | .jpOff _
  | .skp _ | .sknp _ | .ldDt _ | .ldSt _ | .addI _ | .ldFont _ | .bcd _ | .store _ => False
  | .ldImm x _ | .addImm x _ | .ldReg x _ | .rnd x _ | .ldFromDt x | .ldKey x => r = x
  | .or x _ | .and x _ | .xor x _ => r = x ∨ (p.logicResetsVf = true ∧ r = vf)
  | .addReg x _ | .sub x _ | .subn x _ | .shr x _ | .shl x _ => r = x ∨ r = vf
  | .drw _ _ _ => r = vf
  | .load x => r ≤ x

/-- What address `a` reads as once the bytes `stored` stand at `base`, `base + 1`, ... of the memory `m`. -/
def byteOver (m : Memory) (base : Nat) (stored : List Byte) (a : Nat) : Byte :=
  if base ≤ a ∧ a < base + stored.length then stored.getD (a - base) 0 else m.readByte a

/-- What FX55 and FX65 add to I (parameter LOADSTORE_I_INCREMENT, 00_scope.md R8). -/
def iIncrement (s : State) (x : RegIdx) : Nat :=
  match s.params.loadStoreIncrement with
  | .none => 0
  | .xPlus1 => x.val + 1
  | .x => x.val

/-- The flag of key `k` after a sequence of operations, from the flag before: what the last PRESS or RELEASE of `k` left
(44_keypad_timers.md R134). -/
def lastKeyEvent (k : Fin 16) : List HostOp → Bool → Bool
  | [], before => before
  | .press j :: ops, before => lastKeyEvent k ops (if j = k.val then true else before)
  | .release j :: ops, before => lastKeyEvent k ops (if j = k.val then false else before)
  | .step :: ops, before => lastKeyEvent k ops before
  | .tick :: ops, before => lastKeyEvent k ops before
  | .readFb :: ops, before => lastKeyEvent k ops before
  | .soundActive :: ops, before => lastKeyEvent k ops before

/-- Some set bit of the sprite `rows`, drawn with its top left corner at (x0, y0), falls on the pixel (px, py): bit 7 - k of row r
falls on ((x0 + k) mod 64, (y0 + r) mod 32) (43_display.md R123, R124). -/
def SpriteBitAt (rows : List Byte) (x0 y0 : Nat) (px : Fin 64) (py : Fin 32) : Prop :=
  ∃ r k : Nat, r < rows.length ∧ k < 8 ∧ (rows.getD r 0).getLsbD (7 - k) = true ∧
    px.val = (x0 + k) % 64 ∧ py.val = (y0 + r) % 32

end Sys2Proof.Machine
end

