-- ==== Sys2Proof/Certificates/Slice0/Obligations.lean ====
section
/-! DEFINITION. The statements for the provers. Each docstring names the rule or the section of spec/ it formalises. "General knowledge" and
"decision" in a docstring are the spec's own marks on that text: the statement is then derived, not stated. -/

open Sys2Proof Sys2Proof.Machine

/-! ### Encoding -/

/-- Decoding the word of a well-formed instruction gives it back, every operand at every value (30_encoding.md, the opcode map, general
knowledge). -/
def Obligations.EncodeThenDecodeIsIdentity : Prop :=
  ∀ i : Instr, i.wellFormed = true → decode (encode i) = .ok i ∧ decodeBytes (bytesOfWord (encode i)) = .ok (i, [])

/-- A word that decodes is the word of its instruction, and that instruction is well formed: every word has one meaning
(30_encoding.md, the decode procedure, general knowledge). -/
def Obligations.DecodeThenEncodeIsIdentity : Prop :=
  ∀ (op : Word) (i : Instr), decode op = .ok i → encode i = op ∧ i.wellFormed = true

/-- Every pattern of the opcode map decodes to its form with its fields in their places (30_encoding.md, the opcode map, general
knowledge). The row SYS is the model's choice (log entry 3): its words decode to `sys`, and R69's own answer for them is Unknown. -/
def Obligations.EveryPatternDecodesToItsForm : Prop :=
  (decode 0x00E0 = .ok .cls ∧ decode 0x00EE = .ok .ret) ∧
  (∀ nnn : Addr12, nnn ≠ 0x0E0 → nnn ≠ 0x0EE →
    decode (0x0#4 ++ nnn) = .ok (.sys nnn) ∧ classify (0x0#4 ++ nnn) = none) ∧
  (∀ nnn : Addr12, decode (0x1#4 ++ nnn) = .ok (.jp nnn) ∧ decode (0x2#4 ++ nnn) = .ok (.call nnn) ∧
    decode (0xA#4 ++ nnn) = .ok (.ldI nnn) ∧ decode (0xB#4 ++ nnn) = .ok (.jpOff nnn)) ∧
  (∀ (x : BitVec 4) (nn : Byte), decode (0x3#4 ++ x ++ nn) = .ok (.seImm (ofNibble x) nn) ∧
    decode (0x4#4 ++ x ++ nn) = .ok (.sneImm (ofNibble x) nn) ∧ decode (0x6#4 ++ x ++ nn) = .ok (.ldImm (ofNibble x) nn) ∧
    decode (0x7#4 ++ x ++ nn) = .ok (.addImm (ofNibble x) nn) ∧ decode (0xC#4 ++ x ++ nn) = .ok (.rnd (ofNibble x) nn)) ∧
  (∀ x y : BitVec 4, decode (0x5#4 ++ x ++ y ++ 0x0#4) = .ok (.seReg (ofNibble x) (ofNibble y)) ∧
    decode (0x9#4 ++ x ++ y ++ 0x0#4) = .ok (.sneReg (ofNibble x) (ofNibble y)) ∧
    decode (0x8#4 ++ x ++ y ++ 0x0#4) = .ok (.ldReg (ofNibble x) (ofNibble y)) ∧
    decode (0x8#4 ++ x ++ y ++ 0x1#4) = .ok (.or (ofNibble x) (ofNibble y)) ∧
    decode (0x8#4 ++ x ++ y ++ 0x2#4) = .ok (.and (ofNibble x) (ofNibble y)) ∧
    decode (0x8#4 ++ x ++ y ++ 0x3#4) = .ok (.xor (ofNibble x) (ofNibble y)) ∧
    decode (0x8#4 ++ x ++ y ++ 0x4#4) = .ok (.addReg (ofNibble x) (ofNibble y)) ∧
    decode (0x8#4 ++ x ++ y ++ 0x5#4) = .ok (.sub (ofNibble x) (ofNibble y)) ∧
    decode (0x8#4 ++ x ++ y ++ 0x6#4) = .ok (.shr (ofNibble x) (ofNibble y)) ∧
    decode (0x8#4 ++ x ++ y ++ 0x7#4) = .ok (.subn (ofNibble x) (ofNibble y)) ∧
    decode (0x8#4 ++ x ++ y ++ 0xE#4) = .ok (.shl (ofNibble x) (ofNibble y))) ∧
  (∀ x y n : BitVec 4, decode (0xD#4 ++ x ++ y ++ n) = .ok (.drw (ofNibble x) (ofNibble y) (ofNibble n))) ∧
  (∀ x : BitVec 4, decode (0xE#4 ++ x ++ 0x9E#8) = .ok (.skp (ofNibble x)) ∧
    decode (0xE#4 ++ x ++ 0xA1#8) = .ok (.sknp (ofNibble x)) ∧ decode (0xF#4 ++ x ++ 0x07#8) = .ok (.ldFromDt (ofNibble x)) ∧
    decode (0xF#4 ++ x ++ 0x0A#8) = .ok (.ldKey (ofNibble x)) ∧ decode (0xF#4 ++ x ++ 0x15#8) = .ok (.ldDt (ofNibble x)) ∧
    decode (0xF#4 ++ x ++ 0x18#8) = .ok (.ldSt (ofNibble x)) ∧ decode (0xF#4 ++ x ++ 0x1E#8) = .ok (.addI (ofNibble x)) ∧
    decode (0xF#4 ++ x ++ 0x29#8) = .ok (.ldFont (ofNibble x)) ∧ decode (0xF#4 ++ x ++ 0x33#8) = .ok (.bcd (ofNibble x)) ∧
    decode (0xF#4 ++ x ++ 0x55#8) = .ok (.store (ofNibble x)) ∧ decode (0xF#4 ++ x ++ 0x65#8) = .ok (.load (ofNibble x)))

/-- The Unknown words are exactly the six lists of illegal words, and every legal word is the word of a form with an effect
(30_encoding.md, section 3, derived there from R69; D2 for 0NNN). -/
def Obligations.UnknownWordsAreTheListedOnes : Prop :=
  ∀ op : Word, (classify op = none ↔ IllegalWord op) ∧
    ∀ i, classify op = some i ↔ (decode op = .ok i ∧ i.hasEffect = true)

/-- There are 21582 illegal words and 43954 legal ones (30_encoding.md, section 3, derived there; counted over high and low bytes). -/
def Obligations.IllegalWordsCounted : Prop :=
  ((List.range 256).map fun hi => (List.range 256).countP fun lo =>
    (classify (BitVec.ofNat 16 (256 * hi + lo))).isNone).sum = 21582 ∧
  ((List.range 256).map fun hi => (List.range 256).countP fun lo =>
    (classify (BitVec.ofNat 16 (256 * hi + lo))).isSome).sum = 43954

/-- A few words written out from the patterns of 30_encoding.md, one or more of each family, decode to what they stand for (general
knowledge but for 00E0). That 0x0123 decodes to `sys` is the model's choice (log entry 3): R69's own answer for it is Unknown, as it is for the
last three. -/
def Obligations.SampleWordsDecode : Prop :=
  decode 0x00E0 = .ok .cls ∧ decode 0x00EE = .ok .ret ∧ decode 0x0123 = .ok (.sys 0x123) ∧ classify 0x0123 = none ∧ decode 0x220A = .ok (.call 0x20A) ∧
  decode 0x3A05 = .ok (.seImm 0xA 0x05) ∧ decode 0x9230 = .ok (.sneReg 2 3) ∧ decode 0xB300 = .ok (.jpOff 0x300) ∧
  decode 0x8F05 = .ok (.sub 0xF 0) ∧ decode 0x81FE = .ok (.shl 1 0xF) ∧ decode 0xC30F = .ok (.rnd 3 0x0F) ∧
  decode 0xA123 = .ok (.ldI 0x123) ∧ decode 0xFA33 = .ok (.bcd 0xA) ∧ decode 0xF265 = .ok (.load 2) ∧
  decode 0xD01F = .ok (.drw 0 1 15) ∧ decode 0xE1A1 = .ok (.sknp 1) ∧ decode 0xF30A = .ok (.ldKey 3) ∧
  decode 0x5121 = .error (.unknown 0x5121) ∧ decode 0x8018 = .error (.unknown 0x8018) ∧ decode 0xFFFF = .error (.unknown 0xFFFF)

/-! ### The step -/

/-- 30_encoding.md R71: STEP is fetch, decode, execute. When the two bytes at PC decode to an instruction, the step is that instruction's
execution; a failed fetch or an Unknown word raises; and the host gets Ok with the new state, or the error with the state of before. -/
def Obligations.StepRunsTheFetchedInstruction : Prop :=
  ∀ s : State,
    (∀ i, Fetched s i → step s = exec i s) ∧
    (∀ e, s.fetch = .error e → step s = .fault e) ∧
    (∀ op, s.fetch = .ok op → classify op = none → step s = .fault (.unknownOpcode op)) ∧
    (∀ t, step s = .next t → applyOp .step s = (t, .ok)) ∧
    (∀ e, step s = .fault e → applyOp .step s = (s, .err e))

/-- 30_encoding.md R72: fetch reads the opcode big-endian at PC and PC+1, and fails with MemoryOutOfBounds iff PC + 1 ≥ 4096. -/
def Obligations.FetchIsBigEndianAndBounded : Prop :=
  ∀ s : State,
    (4096 ≤ s.pc.toNat + 1 → s.fetch = .error .memoryOutOfBounds ∧ step s = .fault .memoryOutOfBounds) ∧
    (s.pc.toNat + 1 < 4096 → ∃ op, s.fetch = .ok op ∧
      op.toNat = 256 * (s.mem.readByte s.pc.toNat).toNat + (s.mem.readByte (s.pc.toNat + 1)).toNat)

/-- 30_encoding.md R76: an unknown opcode is not executed, the error carries the word, PC is not advanced and no state changes. -/
def Obligations.UnknownOpcodeChangesNothing : Prop :=
  ∀ (s : State) (op : Word), s.fetch = .ok op → classify op = none →
    step s = .fault (.unknownOpcode op) ∧ applyOp .step s = (s, .err (.unknownOpcode op))

/-- A step answers a next state or one of the four errors that STEP can report: it is never refused, and it never reports the errors of
CONSTRUCT, PRESS and RELEASE (60_exceptions.md, sections 1 and 2). -/
def Obligations.StepAnswersNextOrItsOwnErrors : Prop :=
  ∀ s : State, (∃ t, step s = .next t) ∨ step s = .fault .memoryOutOfBounds ∨ (∃ op, step s = .fault (.unknownOpcode op)) ∨
    step s = .fault .stackOverflow ∨ step s = .fault .stackUnderflow

/-- Each error of a step has exactly the causes listed in 60_exceptions.md, section 1 (the bounds of FX33, FX55 and FX65 are decision D14). That
CALL raises with more than 16 entries too, in states no run reaches, is the model's choice (log entry 9). -/
def Obligations.StepErrorsHaveTheListedCauses : Prop :=
  ∀ s : State,
    (step s = .fault .memoryOutOfBounds ↔
      4096 ≤ s.pc.toNat + 1 ∨
      (∃ x y n, Fetched s (.drw x y n) ∧ 1 ≤ n.val ∧ 4096 < s.i.toNat + n.val) ∨
      (∃ x, Fetched s (.bcd x) ∧ 4096 < s.i.toNat + 3) ∨
      (∃ x, (Fetched s (.store x) ∨ Fetched s (.load x)) ∧ 4096 < s.i.toNat + x.val + 1)) ∧
    (∀ op, step s = .fault (.unknownOpcode op) ↔ s.fetch = .ok op ∧ IllegalWord op) ∧
    (step s = .fault .stackOverflow ↔ (∃ nnn, Fetched s (.call nnn)) ∧ 16 ≤ s.stack.length) ∧
    (step s = .fault .stackUnderflow ↔ Fetched s .ret ∧ s.stack = [])

/-- Any operation that returns an error leaves the whole state as it was (60_exceptions.md, section 2; decisions D3 and D30). -/
def Obligations.ErrorsLeaveTheStateUnchanged : Prop :=
  ∀ (op : HostOp) (s : State) (e : Fault), (applyOp op s).2 = .err e → (applyOp op s).1 = s

/-- After a step that fails, every later step fails with the same error, whatever operations the host makes in between
(60_exceptions.md, section 2, derived there). -/
def Obligations.ErrorRepeatsWhateverTheHostDoes : Prop :=
  ∀ (s : State) (e : Fault) (ops : List HostOp), step s = .fault e → step (runOps ops s) = .fault e

/-- 30_encoding.md R75: PC after every successful execution is the table's, 2NNN writes it after pushing PC + 2, and an error result leaves PC
unchanged. -/
def Obligations.PcAfterExecutionIsTheTables : Prop :=
  (∀ (i : Instr) (s t : State), exec i s = .next t → t.pc = pcAfter i s) ∧
  (∀ (nnn : Addr12) (s t : State), exec (.call nnn) s = .next t → t.stack = s.stack ++ [s.pc + 2]) ∧
  (∀ (s : State) (e : Fault), (applyOp .step s).2 = .err e → (applyOp .step s).1.pc = s.pc)

/-- Each part of the state but PC is written by its listed instructions only (10_state.md, sections 2, 3, 4 and 6 to 10; 90_conflicts.md C3, C4, C5):
each V register by the instructions whose row of R21's table writes it; the stack by 2NNN and 00EE; DT by FX15, ST by FX18; the framebuffer by 00E0
and DXYN; memory by FX33 and FX55; the random source by CXNN; I by ANNN, FX1E, FX29 and, under LOADSTORE_I_INCREMENT, FX55 and FX65; the keypad by
none. That the parameters stand in the state, where none writes them, and that a count of draws stands for the random source are the model's choices
(log entries 1 and 2). -/
def Obligations.EachPartHasOnlyItsListedWriters : Prop :=
  ∀ (i : Instr) (s t : State), exec i s = .next t →
    (∀ r, t.getV r ≠ s.getV r → mayWriteV i s.params r) ∧
    (t.stack ≠ s.stack → i = .ret ∨ ∃ nnn, i = .call nnn) ∧
    (t.dt ≠ s.dt → ∃ x, i = .ldDt x) ∧
    (t.st ≠ s.st → ∃ x, i = .ldSt x) ∧
    (t.fb ≠ s.fb → i = .cls ∨ ∃ x y n, i = .drw x y n) ∧
    (t.mem ≠ s.mem → (∃ x, i = .bcd x) ∨ ∃ x, i = .store x) ∧
    (t.rngDraws ≠ s.rngDraws → ∃ x nn, i = .rnd x nn) ∧
    (t.i ≠ s.i → (∃ nnn, i = .ldI nnn) ∨ (∃ x, i = .addI x) ∨ (∃ x, i = .ldFont x) ∨
      (s.params.loadStoreIncrement ≠ .none ∧ ((∃ x, i = .store x) ∨ ∃ x, i = .load x))) ∧
    t.keys = s.keys ∧ t.params = s.params

/-! ### Construction and the invariant -/

/-- 60_exceptions.md R139: CONSTRUCT raises RomTooLarge exactly when the ROM is longer than 3584 bytes; else it gives an Interpreter. -/
def Obligations.RomTooLargeExactlyPast3584 : Prop :=
  ∀ (p : Config.Params) (rom : List Byte),
    (3584 < rom.length → construct p rom = .error .romTooLarge) ∧
    (rom.length ≤ 3584 → ∃ s, construct p rom = .ok s)

/-- What CONSTRUCT leaves (70_reset_and_hazards.md, section 1; the font under FONT_PRELOAD is decision D11): the ROM verbatim from 0x200, the font
image when it is preloaded, zero elsewhere; every register, timer, pixel and key at its reset value. With the defaults and no ROM it is the state
after reset, whose seed is the model's choice (log entry 2). -/
def Obligations.ConstructLeavesTheResetState : Prop :=
  (∀ (p : Config.Params) (rom : List Byte) (s : State), p.wf → construct p rom = .ok s →
    (∀ a, s.mem.readByte a =
      if 0x200 ≤ a ∧ a < 0x200 + rom.length then rom.getD (a - 0x200) 0
      else if p.fontPreload = true ∧ p.fontBase.toNat ≤ a ∧ a < p.fontBase.toNat + 80 then fontImage.getD (a - p.fontBase.toNat) 0
      else 0) ∧
    (∀ r, s.getV r = 0) ∧ s.i = 0 ∧ s.pc = 0x200 ∧ s.stack = [] ∧ s.dt = 0 ∧ s.st = 0 ∧
    (∀ x y, s.fb.get x y = false) ∧ (∀ k, s.key k = false) ∧ s.params = p) ∧
  construct Config.Params.default [] = .ok State.reset ∧
  step State.reset = .fault (.unknownOpcode 0x0000)

/-- The state after reset meets the invariant. -/
def Obligations.ResetMeetsTheInvariant : Prop := State.reset.Inv

/-- Every step keeps the invariant, from every state that meets it: memory stays in its canonical form inside the 4096 bytes, the stack holds at
most 16 addresses, none above 0x1000, PC is at most 0x10FE, and the parameters stay legal. -/
def Obligations.StepKeepsTheInvariant : Prop :=
  ∀ s t : State, s.Inv → step s = .next t → t.Inv

/-- Every state a host can reach, from any ROM and any legal parameters by any operations, meets the invariant. -/
def Obligations.ReachableStatesMeetTheInvariant : Prop := ∀ s : State, Reachable s → s.Inv

/-! ### Control flow -/

/-- 0NNN SYS raises UnknownOpcode with its own word, always (40_control_flow.md, section 0NNN; decision D2). -/
def Obligations.SysAlwaysRaisesUnknownOpcode : Prop :=
  ∀ (nnn : Addr12) (s : State), exec (.sys nnn) s = .fault (.unknownOpcode (zext16 nnn))

/-- 00EE RET pops the most recent address into PC, and raises StackUnderflow on an empty stack (40_control_flow.md, section 00EE, general
knowledge but for the error). -/
def Obligations.RetPopsIntoPc : Prop :=
  (∀ (s : State) (l : List Word) (a : Word), s.stack = l ++ [a] →
    ∃ t, exec .ret s = .next t ∧ t.pc = a ∧ t.stack = l ∧ Frame { stack := true } s t) ∧
  (∀ s : State, s.stack = [] → exec .ret s = .fault .stackUnderflow)

/-- 1NNN JP sets PC to NNN and changes nothing else; a jump to its own address changes nothing at all (40_control_flow.md, section 1NNN, general
knowledge). -/
def Obligations.JpSetsPc : Prop :=
  ∀ (nnn : Addr12) (s : State),
    (∃ t, exec (.jp nnn) s = .next t ∧ t.pc.toNat = nnn.toNat ∧ Frame {} s t) ∧
    (s.pc.toNat = nnn.toNat → exec (.jp nnn) s = .next s)

/-- A program that has reached a jump to itself runs on without an error for any number of steps and never changes its state
(40_control_flow.md, section 1NNN; 60_exceptions.md, section 7). -/
def Obligations.SelfJumpRunsForever : Prop :=
  ∀ (s : State) (nnn : Addr12), Fetched s (.jp nnn) → s.pc.toNat = nnn.toNat →
    ∀ n, SafeRun (List.replicate n .step) s ∧ runOps (List.replicate n .step) s = s

/-- 2NNN CALL pushes PC + 2 and sets PC to NNN, and raises StackOverflow when 16 addresses are there (40_control_flow.md, section 2NNN; the pushed
value is decision D19). -/
def Obligations.CallPushesAndJumps : Prop :=
  (∀ (nnn : Addr12) (s : State), s.stack.length < 16 →
    ∃ t, exec (.call nnn) s = .next t ∧ t.pc.toNat = nnn.toNat ∧ t.stack = s.stack ++ [s.pc + 2] ∧ Frame { stack := true } s t) ∧
  (∀ (nnn : Addr12) (s : State), s.stack.length = 16 → exec (.call nnn) s = .fault .stackOverflow)

/-- A CALL followed by a RET restores PC to the instruction after the call and the stack to what it was (40_control_flow.md, section 2NNN, derived
there). -/
def Obligations.CallThenRetComesBack : Prop :=
  ∀ (nnn : Addr12) (s : State), s.stack.length < 16 →
    ∃ t u, exec (.call nnn) s = .next t ∧ exec .ret t = .next u ∧ u.pc = s.pc + 2 ∧ u.stack = s.stack ∧ Frame {} s u

/-- 3XNN and 4XNN skip the next word when the register equals, or differs from, the immediate (40_control_flow.md, sections 3XNN and 4XNN, general
knowledge but for the advance of 4). -/
def Obligations.SkipOnImmediate : Prop :=
  ∀ (x : RegIdx) (nn : Byte) (s : State),
    (∃ t, exec (.seImm x nn) s = .next t ∧ (s.getV x = nn → t.pc = s.pc + 4) ∧ (s.getV x ≠ nn → t.pc = s.pc + 2) ∧ Frame {} s t) ∧
    (∃ t, exec (.sneImm x nn) s = .next t ∧ (s.getV x ≠ nn → t.pc = s.pc + 4) ∧ (s.getV x = nn → t.pc = s.pc + 2) ∧ Frame {} s t)

/-- 5XY0 and 9XY0 skip the next word when the two registers are equal, or differ (40_control_flow.md, sections 5XY0 and 9XY0, general knowledge but
for the advance of 4). -/
def Obligations.SkipOnRegister : Prop :=
  ∀ (x y : RegIdx) (s : State),
    (∃ t, exec (.seReg x y) s = .next t ∧ (s.getV x = s.getV y → t.pc = s.pc + 4) ∧ (s.getV x ≠ s.getV y → t.pc = s.pc + 2) ∧
      Frame {} s t) ∧
    (∃ t, exec (.sneReg x y) s = .next t ∧ (s.getV x ≠ s.getV y → t.pc = s.pc + 4) ∧ (s.getV x = s.getV y → t.pc = s.pc + 2) ∧
      Frame {} s t)

/-- BNNN sets PC to NNN plus the register that JUMP_OFFSET_REG chooses, not reduced modulo 0x1000 (40_control_flow.md, section BNNN; decisions D8 and
D16). -/
def Obligations.JumpWithOffset : Prop :=
  ∀ (nnn : Addr12) (s : State), ∃ t, exec (.jpOff nnn) s = .next t ∧
    (s.params.jumpOffsetReg = .v0 → t.pc.toNat = nnn.toNat + (s.getV 0).toNat) ∧
    (s.params.jumpOffsetReg = .vx → ∀ x : RegIdx, x.val = nnn.toNat / 256 → t.pc.toNat = nnn.toNat + (s.getV x).toNat) ∧
    Frame {} s t

/-! ### Registers and ALU -/

/-- 6XNN loads the immediate (41_alu.md, section 6XNN, general knowledge). -/
def Obligations.LoadImmediate : Prop :=
  ∀ (x : RegIdx) (nn : Byte) (s : State), ∃ t, exec (.ldImm x nn) s = .next t ∧ t.getV x = nn ∧ t.pc = s.pc + 2 ∧
    Frame { regs := fun r => r == x } s t

/-- 7XNN adds the immediate modulo 256 and writes no flag (41_alu.md, section 7XNN, general knowledge). -/
def Obligations.AddImmediateWithoutCarry : Prop :=
  ∀ (x : RegIdx) (nn : Byte) (s : State), ∃ t, exec (.addImm x nn) s = .next t ∧
    (t.getV x).toNat = ((s.getV x).toNat + nn.toNat) % 256 ∧ t.pc = s.pc + 2 ∧ Frame { regs := fun r => r == x } s t

/-- 8XY0 copies Vy into Vx (41_alu.md, section 8XY0, general knowledge). -/
def Obligations.CopyRegister : Prop :=
  ∀ (x y : RegIdx) (s : State), ∃ t, exec (.ldReg x y) s = .next t ∧ t.getV x = s.getV y ∧ t.pc = s.pc + 2 ∧
    Frame { regs := fun r => r == x } s t

/-- 8XY1, 8XY2 and 8XY3 write the bitwise OR, AND and XOR into Vx, and then 0 into VF when LOGIC_RESETS_VF (41_alu.md, sections 8XY1 to 8XY3, general
knowledge; decision D6). -/
def Obligations.LogicOperations : Prop :=
  ∀ (x y : RegIdx) (s : State),
    (∃ t, exec (.or x y) s = .next t ∧
      (s.params.logicResetsVf = false ∨ x ≠ vf → ∀ j, (t.getV x).getLsbD j = ((s.getV x).getLsbD j || (s.getV y).getLsbD j)) ∧
      (s.params.logicResetsVf = true → t.getV vf = 0) ∧ t.pc = s.pc + 2 ∧
      Frame { regs := fun r => r == x || (s.params.logicResetsVf && r == vf) } s t) ∧
    (∃ t, exec (.and x y) s = .next t ∧
      (s.params.logicResetsVf = false ∨ x ≠ vf → ∀ j, (t.getV x).getLsbD j = ((s.getV x).getLsbD j && (s.getV y).getLsbD j)) ∧
      (s.params.logicResetsVf = true → t.getV vf = 0) ∧ t.pc = s.pc + 2 ∧
      Frame { regs := fun r => r == x || (s.params.logicResetsVf && r == vf) } s t) ∧
    (∃ t, exec (.xor x y) s = .next t ∧
      (s.params.logicResetsVf = false ∨ x ≠ vf → ∀ j, (t.getV x).getLsbD j = ((s.getV x).getLsbD j ^^ (s.getV y).getLsbD j)) ∧
      (s.params.logicResetsVf = true → t.getV vf = 0) ∧ t.pc = s.pc + 2 ∧
      Frame { regs := fun r => r == x || (s.params.logicResetsVf && r == vf) } s t)

/-- 8XY4 adds modulo 256, and VF ends as 1 exactly when the unwrapped sum exceeds 255; with X = F the flag wins (41_alu.md, section 8XY4; the order of
the two writes is decision D4). -/
def Obligations.AddSetsCarry : Prop :=
  ∀ (x y : RegIdx) (s : State), ∃ t, exec (.addReg x y) s = .next t ∧
    (x ≠ vf → (t.getV x).toNat = ((s.getV x).toNat + (s.getV y).toNat) % 256) ∧
    (t.getV vf).toNat = (if 255 < (s.getV x).toNat + (s.getV y).toNat then 1 else 0) ∧
    t.pc = s.pc + 2 ∧ Frame { regs := fun r => r == x || r == vf } s t

/-- 8XY5 computes Vx - Vy and 8XY7 Vy - Vx, modulo 256, and VF ends as 1 exactly when no borrow occurred (41_alu.md, sections 8XY5 and 8XY7; the order
of the two writes is decision D4). -/
def Obligations.SubtractSetsNotBorrow : Prop :=
  ∀ (x y : RegIdx) (s : State),
    (∃ t, exec (.sub x y) s = .next t ∧
      (x ≠ vf → ((t.getV x).toNat : Int) = ((s.getV x).toNat - (s.getV y).toNat : Int) % 256) ∧
      (t.getV vf).toNat = (if (s.getV y).toNat ≤ (s.getV x).toNat then 1 else 0) ∧
      t.pc = s.pc + 2 ∧ Frame { regs := fun r => r == x || r == vf } s t) ∧
    (∃ t, exec (.subn x y) s = .next t ∧
      (x ≠ vf → ((t.getV x).toNat : Int) = ((s.getV y).toNat - (s.getV x).toNat : Int) % 256) ∧
      (t.getV vf).toNat = (if (s.getV x).toNat ≤ (s.getV y).toNat then 1 else 0) ∧
      t.pc = s.pc + 2 ∧ Frame { regs := fun r => r == x || r == vf } s t)

/-- 8XY6 and 8XYE shift by one the register that SHIFT_SOURCE chooses, and VF ends as the bit shifted out (41_alu.md, sections 8XY6 and 8XYE;
decisions D4 and D5). -/
def Obligations.ShiftsSetTheBitShiftedOut : Prop :=
  ∀ (x y : RegIdx) (s : State) (b : Byte),
    (s.params.shiftSource = .vx ∧ b = s.getV x ∨ s.params.shiftSource = .vy ∧ b = s.getV y) →
    (∃ t, exec (.shr x y) s = .next t ∧ (x ≠ vf → (t.getV x).toNat = b.toNat / 2) ∧ (t.getV vf).toNat = b.toNat % 2 ∧
      t.pc = s.pc + 2 ∧ Frame { regs := fun r => r == x || r == vf } s t) ∧
    (∃ t, exec (.shl x y) s = .next t ∧ (x ≠ vf → (t.getV x).toNat = b.toNat * 2 % 256) ∧ (t.getV vf).toNat = b.toNat / 128 ∧
      t.pc = s.pc + 2 ∧ Frame { regs := fun r => r == x || r == vf } s t)

/-- CXNN takes exactly one draw and stores its AND with the mask; the mask 0 gives 0 whatever is drawn (41_alu.md, section CXNN; decision D22). The draw
is a free value: the statement holds whatever it is. -/
def Obligations.RandomIsMasked : Prop :=
  ∀ (x : RegIdx) (nn : Byte) (s : State), ∃ t, exec (.rnd x nn) s = .next t ∧
    (∀ j, (t.getV x).getLsbD j = ((Config.rand s.params.rngSeed s.rngDraws).getLsbD j && nn.getLsbD j)) ∧
    (nn = 0 → t.getV x = 0) ∧ t.rngDraws = s.rngDraws + 1 ∧ t.pc = s.pc + 2 ∧
    Frame { regs := fun r => r == x, draws := true } s t

/-! ### Index and memory -/

/-- ANNN loads I with NNN (42_index_memory.md, section ANNN, general knowledge). -/
def Obligations.LoadIndex : Prop :=
  ∀ (nnn : Addr12) (s : State), ∃ t, exec (.ldI nnn) s = .next t ∧ t.i.toNat = nnn.toNat ∧ t.pc = s.pc + 2 ∧ Frame { i := true } s t

/-- FX1E adds Vx to I modulo 2^16 and writes no flag (42_index_memory.md, section FX1E, general knowledge; decision D9). -/
def Obligations.AddToIndex : Prop :=
  ∀ (x : RegIdx) (s : State), ∃ t, exec (.addI x) s = .next t ∧ t.i.toNat = (s.i.toNat + (s.getV x).toNat) % 65536 ∧
    t.pc = s.pc + 2 ∧ Frame { i := true } s t

/-- FX29 sets I to FONT_BASE plus five times the low nibble of Vx (42_index_memory.md, section FX29; decision D10). -/
def Obligations.IndexToFontGlyph : Prop :=
  ∀ (x : RegIdx) (s : State), ∃ t, exec (.ldFont x) s = .next t ∧
    t.i.toNat = s.params.fontBase.toNat + 5 * ((s.getV x).toNat % 16) ∧ t.pc = s.pc + 2 ∧ Frame { i := true } s t

/-- FX33 stores the decimal digits of Vx at I, I+1 and I+2, hundreds first, and no other byte; it raises MemoryOutOfBounds when the three bytes do not
all lie in memory (42_index_memory.md, section FX33, general knowledge; decision D14). -/
def Obligations.BcdStoresThreeDigits : Prop :=
  ∀ (x : RegIdx) (s : State),
    (s.mem.wf = true → s.i.toNat + 3 ≤ 4096 → ∃ t, exec (.bcd x) s = .next t ∧
      (t.mem.readByte s.i.toNat).toNat = (s.getV x).toNat / 100 ∧
      (t.mem.readByte (s.i.toNat + 1)).toNat = (s.getV x).toNat / 10 % 10 ∧
      (t.mem.readByte (s.i.toNat + 2)).toNat = (s.getV x).toNat % 10 ∧ t.pc = s.pc + 2 ∧
      Frame { bytes := fun a => decide (s.i.toNat ≤ a ∧ a < s.i.toNat + 3) } s t) ∧
    (4096 < s.i.toNat + 3 → exec (.bcd x) s = .fault .memoryOutOfBounds)

/-- FX55 stores V0 to Vx at I to I+X and no other byte, and moves I as LOADSTORE_I_INCREMENT says; it raises MemoryOutOfBounds when the range does not
lie in memory (42_index_memory.md, section FX55, general knowledge; decisions D7 and D14). -/
def Obligations.StoreRegisterRange : Prop :=
  ∀ (x : RegIdx) (s : State),
    (s.mem.wf = true → s.i.toNat + x.val + 1 ≤ 4096 → ∃ t, exec (.store x) s = .next t ∧
      (∀ r : RegIdx, r ≤ x → t.mem.readByte (s.i.toNat + r.val) = s.getV r) ∧
      t.i.toNat = (s.i.toNat + iIncrement s x) % 65536 ∧ t.pc = s.pc + 2 ∧
      Frame { i := true, bytes := fun a => decide (s.i.toNat ≤ a ∧ a < s.i.toNat + x.val + 1) } s t) ∧
    (4096 < s.i.toNat + x.val + 1 → exec (.store x) s = .fault .memoryOutOfBounds)

/-- FX65 loads V0 to Vx from I to I+X and no other register, changes no memory, and moves I as LOADSTORE_I_INCREMENT says; it raises MemoryOutOfBounds
when the range does not lie in memory (42_index_memory.md, section FX65, general knowledge; decisions D7 and D14). -/
def Obligations.LoadRegisterRange : Prop :=
  ∀ (x : RegIdx) (s : State),
    (s.i.toNat + x.val + 1 ≤ 4096 → ∃ t, exec (.load x) s = .next t ∧
      (∀ r : RegIdx, r ≤ x → t.getV r = s.mem.readByte (s.i.toNat + r.val)) ∧
      t.i.toNat = (s.i.toNat + iIncrement s x) % 65536 ∧ t.pc = s.pc + 2 ∧
      Frame { i := true, regs := fun r => decide (r ≤ x) } s t) ∧
    (4096 < s.i.toNat + x.val + 1 → exec (.load x) s = .fault .memoryOutOfBounds)

/-- The bytes that FX33 or FX55 stored are what a later fetch reads there, and a fetch reads the older bytes everywhere else, one of each where it
straddles the edge: self-modifying code needs no fence (20_memory.md, section 6, derived there; the digit order of FX33 is general knowledge). -/
def Obligations.StoredBytesAreFetched : Prop :=
  ∀ (x : RegIdx) (s t u : State) (stored : List Byte), s.mem.wf = true →
    (exec (.store x) s = .next t ∧ stored.length = x.val + 1 ∧ (∀ r : RegIdx, r ≤ x → stored[r.val]? = some (s.getV r))) ∨
    (exec (.bcd x) s = .next t ∧
      stored.map BitVec.toNat = [(s.getV x).toNat / 100, (s.getV x).toNat / 10 % 10, (s.getV x).toNat % 10]) →
    u.mem = t.mem → u.pc.toNat + 1 < 4096 →
    u.fetch = .ok (wordOfBytes (byteOver s.mem s.i.toNat stored u.pc.toNat) (byteOver s.mem s.i.toNat stored (u.pc.toNat + 1)))

/-! ### Display -/

/-- 43_display.md R122: CLS is the word 0x00E0 and no other; it sets every pixel to false, writes no flag and advances by 2. -/
def Obligations.ClsClearsEveryPixel : Prop :=
  (∀ op : Word, decode op = .ok .cls ↔ op = 0x00E0) ∧
  ∀ s : State, ∃ t, exec .cls s = .next t ∧ (∀ x y, t.fb.get x y = false) ∧ t.pc = s.pc + 2 ∧ Frame { fb := true } s t

/-- DXYN inverts exactly the pixels on which a set bit of the N sprite bytes at I falls, wrapping on both axes, and VF ends as 1 exactly when one of them
was set; it reads no memory when N = 0, and raises MemoryOutOfBounds when the N ≥ 1 bytes do not all lie in memory (43_display.md, section DXYN; decisions
D4, D12 and D13). -/
def Obligations.DrawXorsTheSprite : Prop :=
  ∀ (x y : RegIdx) (n : Fin 16) (s : State),
    (n.val = 0 ∨ s.i.toNat + n.val ≤ 4096 →
      let bit := SpriteBitAt ((List.range n.val).map fun r => s.mem.readByte (s.i.toNat + r)) ((s.getV x).toNat % 64) ((s.getV y).toNat % 32)
      ∃ t, exec (.drw x y n) s = .next t ∧
        (∀ px py, (bit px py → t.fb.get px py = !s.fb.get px py) ∧ (¬ bit px py → t.fb.get px py = s.fb.get px py)) ∧
        ((∃ px py, bit px py ∧ s.fb.get px py = true) → t.getV vf = 1) ∧
        (¬ (∃ px py, bit px py ∧ s.fb.get px py = true) → t.getV vf = 0) ∧
        t.pc = s.pc + 2 ∧ Frame { regs := fun r => r == vf, fb := true } s t) ∧
    (n.val ≠ 0 → 4096 < s.i.toNat + n.val → exec (.drw x y n) s = .fault .memoryOutOfBounds)

/-- 43_display.md R125: after a DXYN, VF = 1 iff some pixel went from true to false during the draw, and VF = 0 otherwise, whatever VF was. -/
def Obligations.CollisionFlagMeansAPixelWasCleared : Prop :=
  ∀ (x y : RegIdx) (n : Fin 16) (s t : State), exec (.drw x y n) s = .next t →
    (t.getV vf = 1 ↔ ∃ px py, s.fb.get px py = true ∧ t.fb.get px py = false) ∧
    (t.getV vf = 0 ↔ ¬ ∃ px py, s.fb.get px py = true ∧ t.fb.get px py = false)

/-- The same sprite drawn a second time at the same coordinates restores the framebuffer exactly, and the second draw's VF is 1 iff some set bit fell on a
pixel that was clear before the first (43_display.md, section DXYN, "Consequences", derived there). The second draw may name other registers, as it must
when VF held a coordinate. -/
def Obligations.SecondDrawRestoresTheScreen : Prop :=
  ∀ (x y x' y' : RegIdx) (n : Fin 16) (s t t' : State), exec (.drw x y n) s = .next t →
    t'.fb = t.fb → t'.i = s.i → (∀ a, t'.mem.readByte a = s.mem.readByte a) →
    (t'.getV x').toNat % 64 = (s.getV x).toNat % 64 → (t'.getV y').toNat % 32 = (s.getV y).toNat % 32 →
    ∃ u, exec (.drw x' y' n) t' = .next u ∧ u.fb = s.fb ∧
      (u.getV vf = 1 ↔ ∃ px py,
        SpriteBitAt ((List.range n.val).map fun r => s.mem.readByte (s.i.toNat + r)) ((s.getV x).toNat % 64) ((s.getV y).toNat % 32) px py ∧
        s.fb.get px py = false)

/-! ### Keypad and timers -/

/-- EX9E and EXA1 skip the next word when the key that the low nibble of Vx names is pressed, or is not (44_keypad_timers.md, sections EX9E and EXA1,
general knowledge; decision D20). -/
def Obligations.SkipOnKey : Prop :=
  ∀ (x : RegIdx) (s : State) (k : Fin 16), k.val = (s.getV x).toNat % 16 →
    (∃ t, exec (.skp x) s = .next t ∧ t.pc = s.pc + (if s.key k = true then 4 else 2) ∧ Frame {} s t) ∧
    (∃ t, exec (.sknp x) s = .next t ∧ t.pc = s.pc + (if s.key k = true then 2 else 4) ∧ Frame {} s t)

/-- FX0A stores the least pressed key and advances, and with no key pressed the step completes and changes nothing (44_keypad_timers.md, section FX0A;
decision D21). -/
def Obligations.KeyWait : Prop :=
  ∀ (x : RegIdx) (s : State),
    (∀ k : Fin 16, s.key k = true → (∀ j, j < k → s.key j = false) →
      ∃ t, exec (.ldKey x) s = .next t ∧ (t.getV x).toNat = k.val ∧ t.pc = s.pc + 2 ∧ Frame { regs := fun r => r == x } s t) ∧
    ((∀ k, s.key k = false) → exec (.ldKey x) s = .next s)

/-- At an FX0A with no key pressed, any operations without a PRESS leave PC, the registers, I, the stack, memory and the framebuffer as they are, and no step
among them fails; after them a PRESS and a STEP store the key and advance by 2 (44_keypad_timers.md, section FX0A; 70_reset_and_hazards.md, section 3). -/
def Obligations.KeyWaitHoldsUntilAPress : Prop :=
  ∀ (x : RegIdx) (s : State) (ops : List HostOp), Fetched s (.ldKey x) → (∀ k, s.key k = false) →
    (∀ op ∈ ops, ∀ k, op ≠ .press k) →
    let w := runOps ops s
    (w.pc = s.pc ∧ w.v = s.v ∧ w.i = s.i ∧ w.stack = s.stack ∧ w.mem = s.mem ∧ w.fb = s.fb ∧ w.keys = s.keys ∧ StepSafe w) ∧
    (∀ k : Fin 16, ((runOps [.press k.val, .step] w).getV x).toNat = k.val ∧ (runOps [.press k.val, .step] w).pc = s.pc + 2)

/-- FX07 copies DT into Vx and leaves DT as it is (44_keypad_timers.md, section FX07, general knowledge). -/
def Obligations.ReadDelayTimer : Prop :=
  ∀ (x : RegIdx) (s : State), ∃ t, exec (.ldFromDt x) s = .next t ∧ t.getV x = s.dt ∧ t.pc = s.pc + 2 ∧
    Frame { regs := fun r => r == x } s t

/-- 70_reset_and_hazards.md R171: of two STEPs that execute FX07 with no FX15 between them, the second reads another DT than the first exactly when
at least one TICK between them found DT above 0. The host puts any operations in between, in any order. -/
def Obligations.DelayReadsDifferExactlyAfterATick : Prop :=
  ∀ (x y : RegIdx) (s t v : State) (ops : List HostOp),
    Fetched s (.ldFromDt x) → step s = .next t →
    (∀ before after, ops = before ++ .step :: after → ∀ z, ¬ Fetched (runOps before t) (.ldDt z)) →
    Fetched (runOps ops t) (.ldFromDt y) → step (runOps ops t) = .next v →
    (v.getV y ≠ t.getV x ↔ ∃ before after, ops = before ++ .tick :: after ∧ 0 < (runOps before t).dt.toNat)

/-- FX15 sets DT and FX18 sets ST to Vx, and the sound is active at once exactly when that value is not 0 (44_keypad_timers.md, sections FX15 and FX18,
general knowledge but for the sound). -/
def Obligations.SetTimers : Prop :=
  ∀ (x : RegIdx) (s : State),
    (∃ t, exec (.ldDt x) s = .next t ∧ t.dt = s.getV x ∧ t.pc = s.pc + 2 ∧ Frame { dt := true } s t) ∧
    (∃ t, exec (.ldSt x) s = .next t ∧ t.st = s.getV x ∧ (soundActive t = true ↔ 0 < (s.getV x).toNat) ∧ t.pc = s.pc + 2 ∧
      Frame { st := true } s t)

/-- 44_keypad_timers.md R134: no instruction writes Key and none reads ST, and the keypad that a step sees is what the host's last PRESS and RELEASE calls
left. That none reads ST: with any other ST the same instruction gives the same error, or the same state but for ST, and ST itself is then either
written with the same value in both or left as it was in both. -/
def Obligations.KeypadIsTheHostsAndSoundTimerIsUnread : Prop :=
  (∀ (i : Instr) (s t : State), exec i s = .next t → t.keys = s.keys) ∧
  (∀ (i : Instr) (s : State) (v : Byte),
    (∀ e, exec i s = .fault e ↔ exec i (s.setSt v) = .fault e) ∧
    (∀ t, exec i s = .next t → ∃ t', exec i (s.setSt v) = .next t' ∧ t'.setSt t.st = t ∧
      (t'.st = t.st ∨ (t.st = s.st ∧ t'.st = v)))) ∧
  (∀ (ops : List HostOp) (s : State) (k : Fin 16), (runOps ops s).key k = lastKeyEvent k ops (s.key k))

/-! ### The host's other operations -/

/-- 60_exceptions.md R150: TICK takes one from each timer that is above 0, leaves one at 0 there, and changes nothing else, PC included. -/
def Obligations.TickCountsBothTimersDown : Prop :=
  ∀ s : State,
    (applyOp .tick s).2 = .unit ∧
    (applyOp .tick s).1.dt.toNat = (if 0 < s.dt.toNat then s.dt.toNat - 1 else 0) ∧
    (applyOp .tick s).1.st.toNat = (if 0 < s.st.toNat then s.st.toNat - 1 else 0) ∧
    (applyOp .tick s).1.pc = s.pc ∧ Frame { dt := true, st := true } s (applyOp .tick s).1

/-- PRESS(k) and RELEASE(k) raise InvalidKeyIndex when k > 15, set or clear that one key otherwise, change nothing else, and are idempotent
(60_exceptions.md, section 5, keypad). That a failing call leaves the state of before is decision D30 and, in the model, log entry 4. -/
def Obligations.PressAndReleaseSetOneKey : Prop :=
  (∀ (k : Nat) (s : State), 15 < k →
    applyOp (.press k) s = (s, .err .invalidKeyIndex) ∧ applyOp (.release k) s = (s, .err .invalidKeyIndex)) ∧
  (∀ (k : Fin 16) (s : State),
    (applyOp (.press k.val) s).2 = .ok ∧ (applyOp (.release k.val) s).2 = .ok ∧
    (∀ j, (applyOp (.press k.val) s).1.key j = if j = k then true else s.key j) ∧
    (∀ j, (applyOp (.release k.val) s).1.key j = if j = k then false else s.key j) ∧
    (applyOp (.press k.val) s).1 = { s with keys := (applyOp (.press k.val) s).1.keys } ∧
    (applyOp (.release k.val) s).1 = { s with keys := (applyOp (.release k.val) s).1.keys } ∧
    applyOp (.press k.val) (applyOp (.press k.val) s).1 = applyOp (.press k.val) s ∧
    applyOp (.release k.val) (applyOp (.release k.val) s).1 = applyOp (.release k.val) s)

/-- 60_exceptions.md R155 and R157: READ_FB returns FB[x, y] as element y*64 + x, SOUND_ACTIVE returns ST > 0, and neither changes the state or fails. -/
def Obligations.ViewsReadTheScreenAndTheSoundTimer : Prop :=
  ∀ s : State,
    (∃ p : Vector Bool 2048, applyOp .readFb s = (s, .pixels p) ∧
      ∀ (x : Fin 64) (y : Fin 32), p[y.val * 64 + x.val]? = some (s.fb.get x y)) ∧
    (∃ b : Bool, applyOp .soundActive s = (s, .active b) ∧ (b = true ↔ 0 < s.st.toNat))
end

