-- ==== Sys2Proof/Laws/Decode.lean ====
section
/-! SUPPORT. The fields of an assembled word, and the word assembled from its fields: the three layouts of 30_encoding.md R66 (four nibbles,
two nibbles and a byte, a nibble and an address). -/

namespace Sys2Proof

/-! ### Nibbles and indices -/

@[simp] theorem ofNibble_toNibble (k : Fin 16) : ofNibble (toNibble k) = k := by
  ext
  simp [ofNibble, toNibble]

@[simp] theorem toNibble_ofNibble (b : BitVec 4) : toNibble (ofNibble b) = b := by
  simp [ofNibble, toNibble]

/-! ### Words and fields as numbers -/

/-- Concatenation puts its first part in the high bits (00_scope.md R10). -/
theorem append_toNat {n m : Nat} (a : BitVec n) (b : BitVec m) : (a ++ b).toNat = a.toNat * 2 ^ m + b.toNat := by
  rw [BitVec.toNat_append, ← Nat.shiftLeft_add_eq_or_of_lt b.isLt, Nat.shiftLeft_eq]

section
variable (a b c d : BitVec 4) (nn : Byte) (nnn : Addr12)

theorem nibbles_toNat : (a ++ b ++ c ++ d : Word).toNat = a.toNat * 4096 + b.toNat * 256 + c.toNat * 16 + d.toNat := by
  rw [append_toNat, append_toNat, append_toNat]
  omega

theorem immediate_toNat : (a ++ b ++ nn : Word).toNat = a.toNat * 4096 + b.toNat * 256 + nn.toNat := by
  rw [append_toNat, append_toNat]
  omega

theorem address_toNat : (a ++ nnn : Word).toNat = a.toNat * 4096 + nnn.toNat := by
  rw [append_toNat]
  omega

end

section
variable (op : Word)

theorem fieldN1_toNat : (fieldN1 op).toNat = op.toNat / 4096 % 16 := by simp [fieldN1, Nat.shiftRight_eq_div_pow]
theorem nibbleX_toNat : (nibbleX op).toNat = op.toNat / 256 % 16 := by simp [nibbleX, Nat.shiftRight_eq_div_pow]
theorem nibbleY_toNat : (nibbleY op).toNat = op.toNat / 16 % 16 := by simp [nibbleY, Nat.shiftRight_eq_div_pow]
theorem nibbleN_toNat : (nibbleN op).toNat = op.toNat % 16 := by simp [nibbleN]
theorem fieldNN_toNat : (fieldNN op).toNat = op.toNat % 256 := by simp [fieldNN]
theorem fieldNNN_toNat : (fieldNNN op).toNat = op.toNat % 4096 := by simp [fieldNNN]

end

/-! ### The fields of an assembled word -/

section
variable (a b c d : BitVec 4) (nn : Byte) (nnn : Addr12)

@[simp] theorem fieldN1_nibbles : fieldN1 (a ++ b ++ c ++ d) = a := by
  apply BitVec.eq_of_toNat_eq
  have := nibbles_toNat a b c d
  rw [fieldN1_toNat]
  omega

@[simp] theorem nibbleX_nibbles : nibbleX (a ++ b ++ c ++ d) = b := by
  apply BitVec.eq_of_toNat_eq
  have := nibbles_toNat a b c d
  rw [nibbleX_toNat]
  omega

@[simp] theorem nibbleY_nibbles : nibbleY (a ++ b ++ c ++ d) = c := by
  apply BitVec.eq_of_toNat_eq
  have := nibbles_toNat a b c d
  rw [nibbleY_toNat]
  omega

@[simp] theorem nibbleN_nibbles : nibbleN (a ++ b ++ c ++ d) = d := by
  apply BitVec.eq_of_toNat_eq
  have := nibbles_toNat a b c d
  rw [nibbleN_toNat]
  omega

@[simp] theorem fieldN1_immediate : fieldN1 (a ++ b ++ nn) = a := by
  apply BitVec.eq_of_toNat_eq
  have := immediate_toNat a b nn
  rw [fieldN1_toNat]
  omega

@[simp] theorem nibbleX_immediate : nibbleX (a ++ b ++ nn) = b := by
  apply BitVec.eq_of_toNat_eq
  have := immediate_toNat a b nn
  rw [nibbleX_toNat]
  omega

@[simp] theorem fieldNN_immediate : fieldNN (a ++ b ++ nn) = nn := by
  apply BitVec.eq_of_toNat_eq
  have := immediate_toNat a b nn
  rw [fieldNN_toNat]
  omega

@[simp] theorem fieldN1_address : fieldN1 (a ++ nnn) = a := by
  apply BitVec.eq_of_toNat_eq
  have := address_toNat a nnn
  rw [fieldN1_toNat]
  omega

@[simp] theorem fieldNNN_address : fieldNNN (a ++ nnn) = nnn := by
  apply BitVec.eq_of_toNat_eq
  have := address_toNat a nnn
  rw [fieldNNN_toNat]
  omega

end

/-! ### The word assembled from its fields -/

section
variable (op : Word)

theorem nibbles_of_fields : fieldN1 op ++ nibbleX op ++ nibbleY op ++ nibbleN op = op := by
  apply BitVec.eq_of_toNat_eq
  have := nibbles_toNat (fieldN1 op) (nibbleX op) (nibbleY op) (nibbleN op)
  rw [fieldN1_toNat, nibbleX_toNat, nibbleY_toNat, nibbleN_toNat] at this
  omega

theorem immediate_of_fields : fieldN1 op ++ nibbleX op ++ fieldNN op = op := by
  apply BitVec.eq_of_toNat_eq
  have := immediate_toNat (fieldN1 op) (nibbleX op) (fieldNN op)
  rw [fieldN1_toNat, nibbleX_toNat, fieldNN_toNat] at this
  omega

theorem address_of_fields : fieldN1 op ++ fieldNNN op = op := by
  apply BitVec.eq_of_toNat_eq
  have := address_toNat (fieldN1 op) (fieldNNN op)
  rw [fieldN1_toNat, fieldNNN_toNat] at this
  omega

/-- The opcode of the two bytes of a word is the word (20_memory.md R47). -/
theorem wordOfBytes_extract : wordOfBytes (op.extractLsb' 8 8) (op.extractLsb' 0 8) = op := by
  apply BitVec.eq_of_toNat_eq
  have h := append_toNat (op.extractLsb' 8 8) (op.extractLsb' 0 8)
  simp [Nat.shiftRight_eq_div_pow] at h
  unfold wordOfBytes
  omega

end

end Sys2Proof
end

