-- ==== Sys2Proof/Laws/Display.lean ====
section
/-! SUPPORT. The laws of the framebuffer and of the sprite unit: what a draw leaves in each pixel, and when it reports a collision. -/

namespace Sys2Proof.Machine

/-! ### Pixels -/

/-- A pixel reads what was last written to it, and a write to another leaves it alone. -/
@[simp] theorem Framebuffer.get_set (fb : Framebuffer) (x : Fin 64) (y : Fin 32) (p : Bool) (a : Fin 64) (b : Fin 32) :
    (Framebuffer.set fb x y p).get a b = if a = x ∧ b = y then p else fb.get a b := by
  simp only [Framebuffer.get, Framebuffer.set, Fin.getElem_fin, Fin.ext_iff]
  by_cases hb : b.val = y.val
  · by_cases ha : a.val = x.val
    · simp [ha, hb]
    · simp [hb, ha, Ne.symm ha]
  · simp [hb, Ne.symm hb]

@[simp] theorem Framebuffer.get_clear (x : Fin 64) (y : Fin 32) : Framebuffer.clear.get x y = false := by
  simp [Framebuffer.get, Framebuffer.clear]

/-- Two framebuffers with the same pixels are equal. -/
theorem Framebuffer.ext_get {f g : Framebuffer} (h : ∀ x y, f.get x y = g.get x y) : f = g := by
  apply Vector.ext
  intro y hy
  apply Vector.ext
  intro x hx
  exact h ⟨x, hx⟩ ⟨y, hy⟩

/-! ### One row -/

/-- A set bit of `row`, one of its first `n` columns, falls on (px, py) when the row is drawn at (x0, y). -/
def RowBitAt (row : Byte) (x0 y n : Nat) (px : Fin 64) (py : Fin 32) : Prop :=
  ∃ k, k < n ∧ row.getLsbD (7 - k) = true ∧ px.val = (x0 + k) % 64 ∧ py.val = y % 32

/-- What the first `n` columns of a row do. -/
theorem drawColumns_spec (x0 y : Nat) (row : Byte) (acc : Framebuffer × Bool) (n : Nat) (hn : n ≤ 8) :
    let out := (List.range n).foldl
      (fun acc k => if row.getLsbD (7 - k) then drawPixel acc (wrapColumn (x0 + k)) (wrapRow y) else acc) acc
    (∀ px py, (RowBitAt row x0 y n px py → out.1.get px py = !acc.1.get px py) ∧
      (¬ RowBitAt row x0 y n px py → out.1.get px py = acc.1.get px py)) ∧
    (out.2 = true ↔ acc.2 = true ∨ ∃ px py, RowBitAt row x0 y n px py ∧ acc.1.get px py = true) := by
  induction n with
  | zero => simp [RowBitAt]
  | succ n ih =>
    obtain ⟨ihp, ihc⟩ := ih (by omega)
    simp only [List.range_succ, List.foldl_append, List.foldl_cons, List.foldl_nil]
    generalize (List.range n).foldl _ acc = out at ihp ihc
    by_cases hbit : row.getLsbD (7 - n) = true
    · rw [if_pos hbit]
      have fresh : ¬ RowBitAt row x0 y n (wrapColumn (x0 + n)) (wrapRow y) := by
        rintro ⟨k, hk, -, hx, -⟩
        simp only [wrapColumn] at hx
        omega
      have old := (ihp _ _).2 fresh
      have here : RowBitAt row x0 y (n + 1) (wrapColumn (x0 + n)) (wrapRow y) :=
        ⟨n, by omega, hbit, rfl, rfl⟩
      have other : ∀ px py, ¬ (px = wrapColumn (x0 + n) ∧ py = wrapRow y) →
          (RowBitAt row x0 y (n + 1) px py ↔ RowBitAt row x0 y n px py) := by
        intro px py hne
        refine ⟨fun ⟨k, hk, hb, hx, hy⟩ => ?_, fun ⟨k, hk, h⟩ => ⟨k, by omega, h⟩⟩
        by_cases hkn : k = n
        · subst hkn
          exact absurd ⟨Fin.ext hx, Fin.ext hy⟩ hne
        · exact ⟨k, by omega, hb, hx, hy⟩
      refine ⟨fun px py => ?_, ?_⟩
      · by_cases hp : px = wrapColumn (x0 + n) ∧ py = wrapRow y
        · obtain ⟨rfl, rfl⟩ := hp
          exact ⟨fun _ => by simp [drawPixel, old], fun h => absurd here h⟩
        · rw [other px py hp]
          simpa [drawPixel, hp] using ihp px py
      · simp only [drawPixel, Bool.or_eq_true, ihc, old]
        constructor
        · rintro ((h | ⟨px, py, h, hs⟩) | h)
          · exact .inl h
          · exact .inr ⟨px, py, (by obtain ⟨k, hk, h⟩ := h; exact ⟨k, by omega, h⟩), hs⟩
          · exact .inr ⟨_, _, here, h⟩
        · rintro (h | ⟨px, py, h, hs⟩)
          · exact .inl (.inl h)
          · by_cases hp : px = wrapColumn (x0 + n) ∧ py = wrapRow y
            · obtain ⟨rfl, rfl⟩ := hp
              exact .inr hs
            · exact .inl (.inr ⟨px, py, (other px py hp).1 h, hs⟩)
    · rw [if_neg hbit]
      have same : ∀ px py, RowBitAt row x0 y (n + 1) px py ↔ RowBitAt row x0 y n px py := by
        intro px py
        refine ⟨fun ⟨k, hk, hb, h⟩ => ⟨k, ?_, hb, h⟩, fun ⟨k, hk, h⟩ => ⟨k, by omega, h⟩⟩
        rcases Nat.lt_succ_iff_lt_or_eq.1 hk with h | rfl
        · exact h
        · exact absurd hb hbit
      simp only [same]
      exact ⟨ihp, ihc⟩

/-- What one row of a sprite does. -/
theorem drawRow_spec (x0 y : Nat) (row : Byte) (acc : Framebuffer × Bool) :
    (∀ px py, (RowBitAt row x0 y 8 px py → (drawRow x0 y row acc).1.get px py = !acc.1.get px py) ∧
      (¬ RowBitAt row x0 y 8 px py → (drawRow x0 y row acc).1.get px py = acc.1.get px py)) ∧
    ((drawRow x0 y row acc).2 = true ↔ acc.2 = true ∨ ∃ px py, RowBitAt row x0 y 8 px py ∧ acc.1.get px py = true) :=
  drawColumns_spec x0 y row acc 8 (Nat.le_refl 8)

/-! ### A sprite -/

theorem spriteBitAt_nil (x0 y : Nat) (px : Fin 64) (py : Fin 32) : ¬ SpriteBitAt [] x0 y px py := by
  simp [SpriteBitAt]

/-- A sprite's bits are its first row's and those of the rows below. -/
theorem spriteBitAt_cons (row : Byte) (rows : List Byte) (x0 y : Nat) (px : Fin 64) (py : Fin 32) :
    SpriteBitAt (row :: rows) x0 y px py ↔ RowBitAt row x0 y 8 px py ∨ SpriteBitAt rows x0 (y + 1) px py := by
  constructor
  · rintro ⟨r, k, hr, hk, hb, hx, hy⟩
    cases r with
    | zero => exact .inl ⟨k, hk, by simpa using hb, hx, by simpa using hy⟩
    | succ r => exact .inr ⟨r, k, by simpa using hr, hk, by simpa using hb, hx, by rw [hy]; congr 1; omega⟩
  · rintro (⟨k, hk, hb, hx, hy⟩ | ⟨r, k, hr, hk, hb, hx, hy⟩)
    · exact ⟨0, k, by simp, hk, by simpa using hb, hx, by simpa using hy⟩
    · exact ⟨r + 1, k, by simpa using hr, hk, by simpa using hb, hx, by rw [hy]; congr 1; omega⟩

/-- In a sprite of at most 32 rows no pixel of the first row is one of the rows below. -/
theorem spriteBitAt_disjoint {row : Byte} {rows : List Byte} {x0 y : Nat} {px : Fin 64} {py : Fin 32}
    (h : rows.length < 32) (hrow : RowBitAt row x0 y 8 px py) : ¬ SpriteBitAt rows x0 (y + 1) px py := by
  rintro ⟨r, -, hr, -, -, -, hy⟩
  obtain ⟨-, -, -, -, hy'⟩ := hrow
  omega

/-- What drawing a sprite of at most 32 rows does: it inverts the pixels its set bits fall on and no other, and reports a collision when
one of them was set. -/
theorem drawRows_spec (x0 : Nat) (rows : List Byte) (y : Nat) (acc : Framebuffer × Bool) (h : rows.length ≤ 32) :
    (∀ px py, (SpriteBitAt rows x0 y px py → (drawRows x0 y rows acc).1.get px py = !acc.1.get px py) ∧
      (¬ SpriteBitAt rows x0 y px py → (drawRows x0 y rows acc).1.get px py = acc.1.get px py)) ∧
    ((drawRows x0 y rows acc).2 = true ↔ acc.2 = true ∨ ∃ px py, SpriteBitAt rows x0 y px py ∧ acc.1.get px py = true) := by
  induction rows generalizing y acc with
  | nil => simp [drawRows, spriteBitAt_nil]
  | cons row rows ih =>
    have hlt : rows.length < 32 := by simpa using h
    obtain ⟨rowp, rowc⟩ := drawRow_spec x0 y row acc
    obtain ⟨restp, restc⟩ := ih (y + 1) (drawRow x0 y row acc) (by omega)
    refine ⟨fun px py => ?_, ?_⟩
    · rw [spriteBitAt_cons, drawRows]
      by_cases hrow : RowBitAt row x0 y 8 px py
      · have := (restp px py).2 (spriteBitAt_disjoint hlt hrow)
        rw [this, (rowp px py).1 hrow]
        simp [hrow]
      · have e := (rowp px py).2 hrow
        simpa [hrow, e] using restp px py
    · rw [drawRows, restc, rowc]
      constructor
      · rintro ((hc | ⟨px, py, hb, hs⟩) | ⟨px, py, hb, hs⟩)
        · exact .inl hc
        · exact .inr ⟨px, py, (spriteBitAt_cons ..).2 (.inl hb), hs⟩
        · refine .inr ⟨px, py, (spriteBitAt_cons ..).2 (.inr hb), ?_⟩
          rwa [(rowp px py).2 (fun hrow => spriteBitAt_disjoint hlt hrow hb)] at hs
      · rintro (hc | ⟨px, py, hb, hs⟩)
        · exact .inl (.inl hc)
        · rcases (spriteBitAt_cons ..).1 hb with hrow | hrest
          · exact .inl (.inr ⟨px, py, hrow, hs⟩)
          · refine .inr ⟨px, py, hrest, ?_⟩
            rwa [(rowp px py).2 (fun hrow => spriteBitAt_disjoint hlt hrow hrest)]

end Sys2Proof.Machine
end

