-- ==== Sys2Proof/Laws/Memory.lean ====
section
/-! SUPPORT. The laws of memory: read after write, other bytes alone, the canonical form kept, and what MemRead and MemWrite answer. -/

namespace Sys2Proof.Machine

/-! ### One byte -/

/-- Below the first listed address nothing is listed. -/
theorem Memory.readByte_below {m : Memory} {lo a : Nat} (h : m.wfFrom lo = true) (ha : a < lo) : m.readByte a = Memory.unlisted := by
  induction m generalizing lo with
  | nil => rfl
  | cons kb rest ih =>
    obtain ⟨k, b⟩ := kb
    simp only [Memory.wfFrom, Bool.and_eq_true, decide_eq_true_eq] at h
    simp only [Memory.readByte, if_neg (show k ≠ a by omega)]
    exact ih h.2 (by omega)

/-- The canonical form from `lo` is one from any lower address. -/
theorem Memory.wfFrom_mono {m : Memory} {lo hi : Nat} (h : m.wfFrom hi = true) (le : lo ≤ hi) : m.wfFrom lo = true := by
  cases m with
  | nil => rfl
  | cons kb rest =>
    simp only [Memory.wfFrom, Bool.and_eq_true, decide_eq_true_eq] at h ⊢
    exact ⟨⟨⟨by omega, h.1.1.2⟩, h.1.2⟩, h.2⟩

/-- What a byte reads after a write, in a canonical memory. -/
theorem Memory.readByte_writeByte_from {m : Memory} {lo : Nat} (h : m.wfFrom lo = true) (a : Nat) (b : Byte) (c : Nat) :
    (m.writeByte a b).readByte c = if c = a then b else m.readByte c := by
  induction m generalizing lo with
  | nil =>
    by_cases hb : b = Memory.unlisted <;> by_cases hc : c = a
    · simp [Memory.writeByte, Memory.readByte, hb, hc]
    · simp [Memory.writeByte, Memory.readByte, hb, hc]
    · simp [Memory.writeByte, Memory.readByte, hb, hc]
    · simp [Memory.writeByte, Memory.readByte, hb, hc, Ne.symm hc]
  | cons kb rest ih =>
    obtain ⟨k, d⟩ := kb
    simp only [Memory.wfFrom, Bool.and_eq_true, decide_eq_true_eq] at h
    have below : ∀ {x}, x ≤ k → Memory.readByte rest x = Memory.unlisted := fun hx => Memory.readByte_below h.2 (by omega)
    simp only [Memory.writeByte]
    by_cases hc : c = a
    · subst hc
      rw [if_pos rfl]
      split
      · split
        · rename_i hlt hb
          rw [Memory.readByte, if_neg (by omega), below (by omega), hb]
        · rw [Memory.readByte, if_pos rfl]
      · split
        · split
          · rename_i heq hb
            rw [below (by omega), hb]
          · rw [Memory.readByte, if_pos rfl]
        · rename_i hge hne
          rw [Memory.readByte, if_neg (Ne.symm hne), ih h.2, if_pos rfl]
    · rw [if_neg hc]
      split
      · split
        · rfl
        · rw [Memory.readByte, if_neg (Ne.symm hc)]
      · split
        · rename_i heq
          subst heq
          rw [Memory.readByte, if_neg (Ne.symm hc)]
          split
          · rfl
          · rw [Memory.readByte, if_neg (Ne.symm hc)]
        · rw [Memory.readByte, Memory.readByte, ih h.2, if_neg hc]

theorem Memory.readByte_writeByte {m : Memory} (h : m.wf = true) (a : Nat) (b : Byte) (c : Nat) :
    (m.writeByte a b).readByte c = if c = a then b else m.readByte c :=
  Memory.readByte_writeByte_from h a b c

/-- A write keeps the canonical form. -/
theorem Memory.wfFrom_writeByte {m : Memory} {lo a : Nat} (h : m.wfFrom lo = true) (hlo : lo ≤ a) (ha : a < 4096) (b : Byte) :
    (m.writeByte a b).wfFrom lo = true := by
  induction m generalizing lo with
  | nil =>
    simp only [Memory.writeByte]
    split <;> simp_all [Memory.wfFrom]
  | cons kb rest ih =>
    obtain ⟨k, d⟩ := kb
    have h' := h
    simp only [Memory.wfFrom, Bool.and_eq_true, decide_eq_true_eq] at h
    simp only [Memory.writeByte]
    split
    · split
      · exact h'
      · simp_all [Memory.wfFrom]
    · split
      · split
        · exact Memory.wfFrom_mono h.2 (by omega)
        · rename_i heq hb
          subst heq
          simp_all [Memory.wfFrom]
      · have := ih h.2 (by omega)
        simp_all [Memory.wfFrom]

theorem Memory.wf_writeByte {m : Memory} (h : m.wf = true) {a : Nat} (ha : a < 4096) (b : Byte) :
    (m.writeByte a b).wf = true :=
  Memory.wfFrom_writeByte h (Nat.zero_le a) ha b

/-- A byte at or past the end of a canonical memory reads as an unlisted one. -/
theorem Memory.readByte_beyond {m : Memory} {lo a : Nat} (h : m.wfFrom lo = true) (ha : 4096 ≤ a) :
    m.readByte a = Memory.unlisted := by
  induction m generalizing lo with
  | nil => rfl
  | cons kb rest ih =>
    obtain ⟨k, b⟩ := kb
    simp only [Memory.wfFrom, Config.memSize, Bool.and_eq_true, decide_eq_true_eq] at h
    simp only [Memory.readByte, if_neg (show k ≠ a by omega)]
    exact ih h.2

/-! ### Ranges -/

@[simp] theorem Memory.readBytes_length (m : Memory) (a n : Nat) : (m.readBytes a n).length = n := by
  simp [Memory.readBytes]

theorem Memory.readBytes_getD (m : Memory) (a n k : Nat) (h : k < n) : (m.readBytes a n).getD k 0 = m.readByte (a + k) := by
  simp [Memory.readBytes, List.getD, h]

/-- Writing a range keeps the canonical form when the range is in bounds. -/
theorem Memory.wf_writeBytes {m : Memory} (h : m.wf = true) (a : Nat) (bs : List Byte) (hb : a + bs.length ≤ 4096) :
    (m.writeBytes a bs).wf = true := by
  induction bs generalizing m a with
  | nil => exact h
  | cons b bs ih =>
    simp only [List.length_cons] at hb
    exact ih (Memory.wf_writeByte h (by omega) b) (a + 1) (by omega)

/-- What a byte reads after a range was written. -/
theorem Memory.readByte_writeBytes {m : Memory} (h : m.wf = true) (a : Nat) (bs : List Byte) (hb : a + bs.length ≤ 4096)
    (c : Nat) :
    (m.writeBytes a bs).readByte c = if a ≤ c ∧ c < a + bs.length then bs.getD (c - a) 0 else m.readByte c := by
  induction bs generalizing m a with
  | nil => rw [Memory.writeBytes, if_neg (by simp)]
  | cons b bs ih =>
    simp only [List.length_cons] at hb ⊢
    rw [Memory.writeBytes, ih (Memory.wf_writeByte h (by omega) b) (a + 1) (by omega), Memory.readByte_writeByte h]
    by_cases hc : c = a
    · subst hc
      rw [if_neg (by omega), if_pos rfl, if_pos (by omega)]
      simp
    · by_cases hin : a + 1 ≤ c ∧ c < a + 1 + bs.length
      · rw [if_pos hin, if_pos (by omega), show c - a = (c - (a + 1)) + 1 by omega]
        simp
      · rw [if_neg hin, if_neg hc, if_neg (by omega)]

/-! ### MemRead and MemWrite (00_scope.md R13) -/

/-- Either the range is in bounds and its bytes are read, or MemoryOutOfBounds. -/
theorem memRead_cases (m : Memory) (a n : Nat) :
    (a + n ≤ 4096 ∧ memRead m a n = .ok (m.readBytes a n)) ∨ (4096 < a + n ∧ memRead m a n = .error .memoryOutOfBounds) := by
  by_cases h : a + n ≤ 4096
  · exact .inl ⟨h, by simp [memRead, inBounds, h]⟩
  · exact .inr ⟨by omega, by simp [memRead, inBounds, h]⟩

/-- Either the range is in bounds and its bytes are written, or MemoryOutOfBounds. -/
theorem memWrite_cases (m : Memory) (a : Nat) (bs : List Byte) :
    (a + bs.length ≤ 4096 ∧ memWrite m a bs = .ok (m.writeBytes a bs)) ∨
    (4096 < a + bs.length ∧ memWrite m a bs = .error .memoryOutOfBounds) := by
  by_cases h : a + bs.length ≤ 4096
  · exact .inl ⟨h, by simp [memWrite, inBounds, h]⟩
  · exact .inr ⟨by omega, by simp [memWrite, inBounds, h]⟩

theorem memRead_ok {m : Memory} {a n : Nat} (h : a + n ≤ 4096) : memRead m a n = .ok (m.readBytes a n) := by
  simp [memRead, inBounds, h]

theorem memWrite_ok {m : Memory} {a : Nat} {bs : List Byte} (h : a + bs.length ≤ 4096) :
    memWrite m a bs = .ok (m.writeBytes a bs) := by
  simp [memWrite, inBounds, h]

theorem memRead_error {m : Memory} {a n : Nat} (h : 4096 < a + n) : memRead m a n = .error .memoryOutOfBounds := by
  simp [memRead, inBounds, h]

theorem memWrite_error {m : Memory} {a : Nat} {bs : List Byte} (h : 4096 < a + bs.length) :
    memWrite m a bs = .error .memoryOutOfBounds := by
  simp [memWrite, inBounds, h]

end Sys2Proof.Machine
end

