-- ==== Sys2Proof/Laws/State.lean ====
section
/-! SUPPORT. One lemma per field per update of the state, so that no proof unfolds a record update. -/

namespace Sys2Proof.Machine

variable (s : State)

/-! ### setV -/

@[simp] theorem State.setV_mem (x : RegIdx) (b : Byte) : (s.setV x b).mem = s.mem := rfl
@[simp] theorem State.setV_i (x : RegIdx) (b : Byte) : (s.setV x b).i = s.i := rfl
@[simp] theorem State.setV_pc (x : RegIdx) (b : Byte) : (s.setV x b).pc = s.pc := rfl
@[simp] theorem State.setV_stack (x : RegIdx) (b : Byte) : (s.setV x b).stack = s.stack := rfl
@[simp] theorem State.setV_dt (x : RegIdx) (b : Byte) : (s.setV x b).dt = s.dt := rfl
@[simp] theorem State.setV_st (x : RegIdx) (b : Byte) : (s.setV x b).st = s.st := rfl
@[simp] theorem State.setV_fb (x : RegIdx) (b : Byte) : (s.setV x b).fb = s.fb := rfl
@[simp] theorem State.setV_keys (x : RegIdx) (b : Byte) : (s.setV x b).keys = s.keys := rfl
@[simp] theorem State.setV_rngDraws (x : RegIdx) (b : Byte) : (s.setV x b).rngDraws = s.rngDraws := rfl
@[simp] theorem State.setV_params (x : RegIdx) (b : Byte) : (s.setV x b).params = s.params := rfl
@[simp] theorem State.setV_key (x : RegIdx) (b : Byte) (j : Fin 16) : (s.setV x b).key j = s.key j := rfl

/-! ### setI -/

@[simp] theorem State.setI_mem (w : Word) : (s.setI w).mem = s.mem := rfl
@[simp] theorem State.setI_i (w : Word) : (s.setI w).i = w := rfl
@[simp] theorem State.setI_pc (w : Word) : (s.setI w).pc = s.pc := rfl
@[simp] theorem State.setI_stack (w : Word) : (s.setI w).stack = s.stack := rfl
@[simp] theorem State.setI_dt (w : Word) : (s.setI w).dt = s.dt := rfl
@[simp] theorem State.setI_st (w : Word) : (s.setI w).st = s.st := rfl
@[simp] theorem State.setI_fb (w : Word) : (s.setI w).fb = s.fb := rfl
@[simp] theorem State.setI_keys (w : Word) : (s.setI w).keys = s.keys := rfl
@[simp] theorem State.setI_rngDraws (w : Word) : (s.setI w).rngDraws = s.rngDraws := rfl
@[simp] theorem State.setI_params (w : Word) : (s.setI w).params = s.params := rfl
@[simp] theorem State.setI_getV (w : Word) (r : RegIdx) : (s.setI w).getV r = s.getV r := rfl
@[simp] theorem State.setI_key (w : Word) (j : Fin 16) : (s.setI w).key j = s.key j := rfl

/-! ### setPc -/

@[simp] theorem State.setPc_mem (w : Word) : (s.setPc w).mem = s.mem := rfl
@[simp] theorem State.setPc_i (w : Word) : (s.setPc w).i = s.i := rfl
@[simp] theorem State.setPc_pc (w : Word) : (s.setPc w).pc = w := rfl
@[simp] theorem State.setPc_stack (w : Word) : (s.setPc w).stack = s.stack := rfl
@[simp] theorem State.setPc_dt (w : Word) : (s.setPc w).dt = s.dt := rfl
@[simp] theorem State.setPc_st (w : Word) : (s.setPc w).st = s.st := rfl
@[simp] theorem State.setPc_fb (w : Word) : (s.setPc w).fb = s.fb := rfl
@[simp] theorem State.setPc_keys (w : Word) : (s.setPc w).keys = s.keys := rfl
@[simp] theorem State.setPc_rngDraws (w : Word) : (s.setPc w).rngDraws = s.rngDraws := rfl
@[simp] theorem State.setPc_params (w : Word) : (s.setPc w).params = s.params := rfl
@[simp] theorem State.setPc_getV (w : Word) (r : RegIdx) : (s.setPc w).getV r = s.getV r := rfl
@[simp] theorem State.setPc_key (w : Word) (j : Fin 16) : (s.setPc w).key j = s.key j := rfl

/-! ### setDt -/

@[simp] theorem State.setDt_mem (b : Byte) : (s.setDt b).mem = s.mem := rfl
@[simp] theorem State.setDt_i (b : Byte) : (s.setDt b).i = s.i := rfl
@[simp] theorem State.setDt_pc (b : Byte) : (s.setDt b).pc = s.pc := rfl
@[simp] theorem State.setDt_stack (b : Byte) : (s.setDt b).stack = s.stack := rfl
@[simp] theorem State.setDt_dt (b : Byte) : (s.setDt b).dt = b := rfl
@[simp] theorem State.setDt_st (b : Byte) : (s.setDt b).st = s.st := rfl
@[simp] theorem State.setDt_fb (b : Byte) : (s.setDt b).fb = s.fb := rfl
@[simp] theorem State.setDt_keys (b : Byte) : (s.setDt b).keys = s.keys := rfl
@[simp] theorem State.setDt_rngDraws (b : Byte) : (s.setDt b).rngDraws = s.rngDraws := rfl
@[simp] theorem State.setDt_params (b : Byte) : (s.setDt b).params = s.params := rfl
@[simp] theorem State.setDt_getV (b : Byte) (r : RegIdx) : (s.setDt b).getV r = s.getV r := rfl
@[simp] theorem State.setDt_key (b : Byte) (j : Fin 16) : (s.setDt b).key j = s.key j := rfl

/-! ### setSt -/

@[simp] theorem State.setSt_mem (b : Byte) : (s.setSt b).mem = s.mem := rfl
@[simp] theorem State.setSt_i (b : Byte) : (s.setSt b).i = s.i := rfl
@[simp] theorem State.setSt_pc (b : Byte) : (s.setSt b).pc = s.pc := rfl
@[simp] theorem State.setSt_stack (b : Byte) : (s.setSt b).stack = s.stack := rfl
@[simp] theorem State.setSt_dt (b : Byte) : (s.setSt b).dt = s.dt := rfl
@[simp] theorem State.setSt_st (b : Byte) : (s.setSt b).st = b := rfl
@[simp] theorem State.setSt_fb (b : Byte) : (s.setSt b).fb = s.fb := rfl
@[simp] theorem State.setSt_keys (b : Byte) : (s.setSt b).keys = s.keys := rfl
@[simp] theorem State.setSt_rngDraws (b : Byte) : (s.setSt b).rngDraws = s.rngDraws := rfl
@[simp] theorem State.setSt_params (b : Byte) : (s.setSt b).params = s.params := rfl
@[simp] theorem State.setSt_getV (b : Byte) (r : RegIdx) : (s.setSt b).getV r = s.getV r := rfl
@[simp] theorem State.setSt_key (b : Byte) (j : Fin 16) : (s.setSt b).key j = s.key j := rfl

/-! ### setStack -/

@[simp] theorem State.setStack_mem (l : List Word) : (s.setStack l).mem = s.mem := rfl
@[simp] theorem State.setStack_i (l : List Word) : (s.setStack l).i = s.i := rfl
@[simp] theorem State.setStack_pc (l : List Word) : (s.setStack l).pc = s.pc := rfl
@[simp] theorem State.setStack_stack (l : List Word) : (s.setStack l).stack = l := rfl
@[simp] theorem State.setStack_dt (l : List Word) : (s.setStack l).dt = s.dt := rfl
@[simp] theorem State.setStack_st (l : List Word) : (s.setStack l).st = s.st := rfl
@[simp] theorem State.setStack_fb (l : List Word) : (s.setStack l).fb = s.fb := rfl
@[simp] theorem State.setStack_keys (l : List Word) : (s.setStack l).keys = s.keys := rfl
@[simp] theorem State.setStack_rngDraws (l : List Word) : (s.setStack l).rngDraws = s.rngDraws := rfl
@[simp] theorem State.setStack_params (l : List Word) : (s.setStack l).params = s.params := rfl
@[simp] theorem State.setStack_getV (l : List Word) (r : RegIdx) : (s.setStack l).getV r = s.getV r := rfl
@[simp] theorem State.setStack_key (l : List Word) (j : Fin 16) : (s.setStack l).key j = s.key j := rfl

/-! ### setMem -/

@[simp] theorem State.setMem_mem (m : Memory) : (s.setMem m).mem = m := rfl
@[simp] theorem State.setMem_i (m : Memory) : (s.setMem m).i = s.i := rfl
@[simp] theorem State.setMem_pc (m : Memory) : (s.setMem m).pc = s.pc := rfl
@[simp] theorem State.setMem_stack (m : Memory) : (s.setMem m).stack = s.stack := rfl
@[simp] theorem State.setMem_dt (m : Memory) : (s.setMem m).dt = s.dt := rfl
@[simp] theorem State.setMem_st (m : Memory) : (s.setMem m).st = s.st := rfl
@[simp] theorem State.setMem_fb (m : Memory) : (s.setMem m).fb = s.fb := rfl
@[simp] theorem State.setMem_keys (m : Memory) : (s.setMem m).keys = s.keys := rfl
@[simp] theorem State.setMem_rngDraws (m : Memory) : (s.setMem m).rngDraws = s.rngDraws := rfl
@[simp] theorem State.setMem_params (m : Memory) : (s.setMem m).params = s.params := rfl
@[simp] theorem State.setMem_getV (m : Memory) (r : RegIdx) : (s.setMem m).getV r = s.getV r := rfl
@[simp] theorem State.setMem_key (m : Memory) (j : Fin 16) : (s.setMem m).key j = s.key j := rfl

/-! ### setFb -/

@[simp] theorem State.setFb_mem (f : Framebuffer) : (s.setFb f).mem = s.mem := rfl
@[simp] theorem State.setFb_i (f : Framebuffer) : (s.setFb f).i = s.i := rfl
@[simp] theorem State.setFb_pc (f : Framebuffer) : (s.setFb f).pc = s.pc := rfl
@[simp] theorem State.setFb_stack (f : Framebuffer) : (s.setFb f).stack = s.stack := rfl
@[simp] theorem State.setFb_dt (f : Framebuffer) : (s.setFb f).dt = s.dt := rfl
@[simp] theorem State.setFb_st (f : Framebuffer) : (s.setFb f).st = s.st := rfl
@[simp] theorem State.setFb_fb (f : Framebuffer) : (s.setFb f).fb = f := rfl
@[simp] theorem State.setFb_keys (f : Framebuffer) : (s.setFb f).keys = s.keys := rfl
@[simp] theorem State.setFb_rngDraws (f : Framebuffer) : (s.setFb f).rngDraws = s.rngDraws := rfl
@[simp] theorem State.setFb_params (f : Framebuffer) : (s.setFb f).params = s.params := rfl
@[simp] theorem State.setFb_getV (f : Framebuffer) (r : RegIdx) : (s.setFb f).getV r = s.getV r := rfl
@[simp] theorem State.setFb_key (f : Framebuffer) (j : Fin 16) : (s.setFb f).key j = s.key j := rfl

/-! ### setKey -/

@[simp] theorem State.setKey_mem (k : Fin 16) (p : Bool) : (s.setKey k p).mem = s.mem := rfl
@[simp] theorem State.setKey_i (k : Fin 16) (p : Bool) : (s.setKey k p).i = s.i := rfl
@[simp] theorem State.setKey_pc (k : Fin 16) (p : Bool) : (s.setKey k p).pc = s.pc := rfl
@[simp] theorem State.setKey_stack (k : Fin 16) (p : Bool) : (s.setKey k p).stack = s.stack := rfl
@[simp] theorem State.setKey_dt (k : Fin 16) (p : Bool) : (s.setKey k p).dt = s.dt := rfl
@[simp] theorem State.setKey_st (k : Fin 16) (p : Bool) : (s.setKey k p).st = s.st := rfl
@[simp] theorem State.setKey_fb (k : Fin 16) (p : Bool) : (s.setKey k p).fb = s.fb := rfl
@[simp] theorem State.setKey_rngDraws (k : Fin 16) (p : Bool) : (s.setKey k p).rngDraws = s.rngDraws := rfl
@[simp] theorem State.setKey_params (k : Fin 16) (p : Bool) : (s.setKey k p).params = s.params := rfl
@[simp] theorem State.setKey_getV (k : Fin 16) (p : Bool) (r : RegIdx) : (s.setKey k p).getV r = s.getV r := rfl

/-! ### afterRand -/

@[simp] theorem State.afterRand_mem : s.afterRand.mem = s.mem := rfl
@[simp] theorem State.afterRand_i : s.afterRand.i = s.i := rfl
@[simp] theorem State.afterRand_pc : s.afterRand.pc = s.pc := rfl
@[simp] theorem State.afterRand_stack : s.afterRand.stack = s.stack := rfl
@[simp] theorem State.afterRand_dt : s.afterRand.dt = s.dt := rfl
@[simp] theorem State.afterRand_st : s.afterRand.st = s.st := rfl
@[simp] theorem State.afterRand_fb : s.afterRand.fb = s.fb := rfl
@[simp] theorem State.afterRand_keys : s.afterRand.keys = s.keys := rfl
@[simp] theorem State.afterRand_rngDraws : s.afterRand.rngDraws = s.rngDraws + 1 := rfl
@[simp] theorem State.afterRand_params : s.afterRand.params = s.params := rfl
@[simp] theorem State.afterRand_getV (r : RegIdx) : s.afterRand.getV r = s.getV r := rfl
@[simp] theorem State.afterRand_key (j : Fin 16) : s.afterRand.key j = s.key j := rfl

/-! ### Registers and keys by index -/

/-- A register reads what was last written to it, and a write to another leaves it alone. -/
@[simp] theorem State.setV_getV (x : RegIdx) (b : Byte) (r : RegIdx) :
    (s.setV x b).getV r = if r = x then b else s.getV r := by
  simp only [State.getV, State.setV, Fin.getElem_fin, Vector.getElem_set, Fin.ext_iff, eq_comm]

/-- A key reads what was last written to it, and a write to another leaves it alone. -/
@[simp] theorem State.setKey_key (k : Fin 16) (p : Bool) (j : Fin 16) :
    (s.setKey k p).key j = if j = k then p else s.key j := by
  simp only [State.key, State.setKey, Fin.getElem_fin, Vector.getElem_set, Fin.ext_iff, eq_comm]

/-! ### Derived updates -/

@[simp] theorem State.advance_eq (k : Word) : s.advance k = s.setPc (s.pc + k) := rfl

@[simp] theorem State.setFlag_eq (c : Bool) : s.setFlag c = s.setV vf (flagByte c) := rfl

@[simp] theorem State.setResultFlag_eq (x : RegIdx) (b : Byte) (c : Bool) :
    s.setResultFlag x b c = (s.setV x b).setV vf (flagByte c) := rfl

theorem State.setLogic_eq (x : RegIdx) (b : Byte) :
    s.setLogic x b = if s.params.logicResetsVf then (s.setV x b).setV vf 0 else s.setV x b := rfl

/-! ### setLogic -/

@[simp] theorem State.setLogic_mem (x : RegIdx) (b : Byte) : (s.setLogic x b).mem = s.mem := by
  rw [State.setLogic_eq]
  split <;> rfl

@[simp] theorem State.setLogic_i (x : RegIdx) (b : Byte) : (s.setLogic x b).i = s.i := by
  rw [State.setLogic_eq]
  split <;> rfl

@[simp] theorem State.setLogic_pc (x : RegIdx) (b : Byte) : (s.setLogic x b).pc = s.pc := by
  rw [State.setLogic_eq]
  split <;> rfl

@[simp] theorem State.setLogic_stack (x : RegIdx) (b : Byte) : (s.setLogic x b).stack = s.stack := by
  rw [State.setLogic_eq]
  split <;> rfl

@[simp] theorem State.setLogic_dt (x : RegIdx) (b : Byte) : (s.setLogic x b).dt = s.dt := by
  rw [State.setLogic_eq]
  split <;> rfl

@[simp] theorem State.setLogic_st (x : RegIdx) (b : Byte) : (s.setLogic x b).st = s.st := by
  rw [State.setLogic_eq]
  split <;> rfl

@[simp] theorem State.setLogic_fb (x : RegIdx) (b : Byte) : (s.setLogic x b).fb = s.fb := by
  rw [State.setLogic_eq]
  split <;> rfl

@[simp] theorem State.setLogic_keys (x : RegIdx) (b : Byte) : (s.setLogic x b).keys = s.keys := by
  rw [State.setLogic_eq]
  split <;> rfl

@[simp] theorem State.setLogic_rngDraws (x : RegIdx) (b : Byte) : (s.setLogic x b).rngDraws = s.rngDraws := by
  rw [State.setLogic_eq]
  split <;> rfl

@[simp] theorem State.setLogic_params (x : RegIdx) (b : Byte) : (s.setLogic x b).params = s.params := by
  rw [State.setLogic_eq]
  split <;> rfl

/-- VF ends as 0 when LOGIC_RESETS_VF, Vx else as the result. -/
theorem State.setLogic_getV (x : RegIdx) (b : Byte) (r : RegIdx) :
    (s.setLogic x b).getV r =
      if s.params.logicResetsVf = true ∧ r = vf then 0 else if r = x then b else s.getV r := by
  rw [State.setLogic_eq]
  split <;> rename_i h <;> simp [h]

end Sys2Proof.Machine
end

