-- ==== Sys2Proof/Laws/Ops.lean ====
section
/-! SUPPORT. One lemma per shared operation that says once everything it does. -/

namespace Sys2Proof.Machine

/-! ### Checked operations -/

@[simp] theorem attempt_ok {α : Type} (a : α) (k : α → Result) : attempt (.ok a) k = k a := rfl

@[simp] theorem attempt_error {α : Type} (e : Fault) (k : α → Result) : attempt (.error e) k = .fault e := rfl

/-- A checked operation ends in a next state only through its continuation. -/
theorem attempt_eq_next {α : Type} {r : Except Fault α} {k : α → Result} {t : State} (h : attempt r k = .next t) :
    ∃ a, r = .ok a ∧ k a = .next t := by
  cases r with
  | ok a => exact ⟨a, rfl, h⟩
  | error e => simp at h

/-- A checked operation ends in an error of its own or one of its continuation. -/
theorem attempt_eq_fault {α : Type} {r : Except Fault α} {k : α → Result} {e : Fault} (h : attempt r k = .fault e) :
    r = .error e ∨ ∃ a, r = .ok a ∧ k a = .fault e := by
  cases r with
  | ok a => exact .inr ⟨a, rfl, h⟩
  | error e' =>
    simp only [attempt_error, Host.Outcome.fault.injEq] at h
    exact .inl (by rw [h])

theorem raise_eq (e : Fault) : raise e = .fault e := rfl

theorem done_eq (s : State) : done s = .next (s.setPc (s.pc + 2)) := rfl

theorem skipIf_eq (c : Bool) (s : State) : skipIf c s = .next (s.setPc (s.pc + if c then 4 else 2)) := rfl

/-- A flag's byte as a number. -/
theorem flagByte_toNat (c : Bool) : (flagByte c).toNat = if c then 1 else 0 := by cases c <;> rfl

/-! ### The stack (10_state.md R27) -/

theorem push_ok {s : State} (h : s.stack.length < 16) (a : Word) : s.push a = .ok (s.setStack (s.stack ++ [a])) := by
  simp [State.push, State.sp, h]

theorem push_error {s : State} (h : 16 ≤ s.stack.length) (a : Word) : s.push a = .error .stackOverflow := by
  simp [State.push, State.sp, h]

theorem pop_ok {s : State} {l : List Word} {a : Word} (h : s.stack = l ++ [a]) : s.pop = .ok (a, s.setStack l) := by
  simp [State.pop, h]

theorem pop_error {s : State} (h : s.stack = []) : s.pop = .error .stackUnderflow := by
  simp [State.pop, h]

/-- A stack is empty or has a most recent entry. -/
theorem stack_cases (l : List Word) : l = [] ∨ ∃ l' a, l = l' ++ [a] := by
  rcases List.eq_nil_or_concat l with h | ⟨l', a, h⟩
  · exact .inl h
  · exact .inr ⟨l', a, by simpa using h⟩

/-! ### Ranges of registers (42_index_memory.md R119, R120) -/

section
variable (s : State) (k : Nat) (bs : List Byte)

@[simp] theorem State.setRange_i : (s.setRange k bs).i = s.i := by
  induction bs generalizing s k with
  | nil => rfl
  | cons b bs ih => simp [State.setRange, ih]

@[simp] theorem State.setRange_pc : (s.setRange k bs).pc = s.pc := by
  induction bs generalizing s k with
  | nil => rfl
  | cons b bs ih => simp [State.setRange, ih]

@[simp] theorem State.setRange_mem : (s.setRange k bs).mem = s.mem := by
  induction bs generalizing s k with
  | nil => rfl
  | cons b bs ih => simp [State.setRange, ih]

@[simp] theorem State.setRange_stack : (s.setRange k bs).stack = s.stack := by
  induction bs generalizing s k with
  | nil => rfl
  | cons b bs ih => simp [State.setRange, ih]

@[simp] theorem State.setRange_dt : (s.setRange k bs).dt = s.dt := by
  induction bs generalizing s k with
  | nil => rfl
  | cons b bs ih => simp [State.setRange, ih]

@[simp] theorem State.setRange_st : (s.setRange k bs).st = s.st := by
  induction bs generalizing s k with
  | nil => rfl
  | cons b bs ih => simp [State.setRange, ih]

@[simp] theorem State.setRange_fb : (s.setRange k bs).fb = s.fb := by
  induction bs generalizing s k with
  | nil => rfl
  | cons b bs ih => simp [State.setRange, ih]

@[simp] theorem State.setRange_keys : (s.setRange k bs).keys = s.keys := by
  induction bs generalizing s k with
  | nil => rfl
  | cons b bs ih => simp [State.setRange, ih]

@[simp] theorem State.setRange_rngDraws : (s.setRange k bs).rngDraws = s.rngDraws := by
  induction bs generalizing s k with
  | nil => rfl
  | cons b bs ih => simp [State.setRange, ih]

@[simp] theorem State.setRange_params : (s.setRange k bs).params = s.params := by
  induction bs generalizing s k with
  | nil => rfl
  | cons b bs ih => simp [State.setRange, ih]

/-- Register k + j takes byte j, and the registers outside the range keep their values. -/
theorem State.setRange_getV (h : k + bs.length ≤ 16) (r : RegIdx) :
    (s.setRange k bs).getV r = if k ≤ r.val ∧ r.val < k + bs.length then bs.getD (r.val - k) 0 else s.getV r := by
  induction bs generalizing s k with
  | nil =>
    rw [if_neg (by simp)]
    rfl
  | cons b bs ih =>
    simp only [List.length_cons] at h ⊢
    rw [State.setRange, ih _ _ (by omega), State.setV_getV]
    by_cases hr : r.val = k
    · have e : r = index16 k := Fin.ext (by simp only [index16]; omega)
      rw [if_neg (by omega), if_pos e, if_pos (by omega), hr]
      simp
    · have e : r ≠ index16 k := fun h' => hr (by simpa [index16, Nat.mod_eq_of_lt (show k < 16 by omega)] using congrArg Fin.val h')
      by_cases hin : k + 1 ≤ r.val ∧ r.val < k + 1 + bs.length
      · rw [if_pos hin, if_pos (by omega), show r.val - k = (r.val - (k + 1)) + 1 by omega]
        simp
      · rw [if_neg hin, if_neg e, if_neg (by omega)]

end

/-! ### ST goes through the other writes untouched (44_keypad_timers.md R134) -/

theorem State.setSt_setRange (s : State) (v : Byte) (k : Nat) (bs : List Byte) :
    (s.setSt v).setRange k bs = (s.setRange k bs).setSt v := by
  induction bs generalizing s k with
  | nil => rfl
  | cons b bs ih => exact ih (s.setV _ b) _

theorem State.setSt_setLogic (s : State) (v : Byte) (x : RegIdx) (b : Byte) :
    (s.setSt v).setLogic x b = (s.setLogic x b).setSt v := by
  rw [State.setLogic_eq, State.setLogic_eq, State.setSt_params]
  split <;> rfl

@[simp] theorem State.regRange_length (s : State) (x : RegIdx) : (s.regRange x).length = x.val + 1 := by simp [State.regRange]

theorem State.regRange_getD (s : State) (x r : RegIdx) (h : r.val ≤ x.val) : (s.regRange x).getD r.val 0 = s.getV r := by
  have e : index16 r.val = r := Fin.ext (by simp [index16, Nat.mod_eq_of_lt r.isLt])
  simp [State.regRange, List.getD, show r.val < x.val + 1 by omega, e]

/-- A list of X + 1 bytes that holds V[r] at r is the range that FX55 stores. -/
theorem State.eq_regRange {s : State} {x : RegIdx} {l : List Byte} (length : l.length = x.val + 1)
    (entries : ∀ r : RegIdx, r ≤ x → l[r.val]? = some (s.getV r)) : l = s.regRange x := by
  refine List.ext_getElem (by simp [length]) fun k hk _ => ?_
  have hx : k ≤ x.val := by omega
  have e : index16 k = ⟨k, by omega⟩ := Fin.ext (Nat.mod_eq_of_lt (by omega))
  have h := entries ⟨k, by omega⟩ hx
  rw [List.getElem?_eq_getElem hk] at h
  simpa [State.regRange, e] using h

@[simp] theorem bcdDigits_length (b : Byte) : (bcdDigits b).length = 3 := rfl

/-! ### Keys (44_keypad_timers.md R128, R130) -/

theorem lowNibble_val (b : Byte) : (lowNibble b).val = b.toNat % 16 := by
  have h : (b &&& 0x0F#8).toNat = b.toNat % 16 := by
    rw [BitVec.toNat_and]
    exact Nat.and_two_pow_sub_one_eq_mod b.toNat 4
  simp [lowNibble, index16, Config.keyIndexMask, h]

/-- The least pressed key is pressed, and no lesser one is. -/
theorem leastKey_eq_some {s : State} {k : Fin 16} :
    s.leastKey = some k ↔ s.key k = true ∧ ∀ j, j < k → s.key j = false := by
  constructor
  · intro h
    obtain ⟨hk, as, bs, hl, hn⟩ := List.find?_eq_some_iff_append.1 h
    refine ⟨hk, fun j hj => ?_⟩
    have hs : (as ++ k :: bs).Pairwise (· < ·) := hl ▸ List.pairwise_lt_finRange 16
    have hmem : j ∈ as ++ k :: bs := hl ▸ List.mem_finRange j
    rcases List.mem_append.1 hmem with hja | hjb
    · simpa using hn j hja
    · rcases List.mem_cons.1 hjb with rfl | hjb
      · exact absurd hj (lt_irrefl _)
      · exact absurd (lt_trans hj ((List.pairwise_cons.1 (List.pairwise_append.1 hs).2.1).1 j hjb)) (lt_irrefl _)
  · rintro ⟨hk, hmin⟩
    cases h : s.leastKey with
    | none => exact absurd hk (by simpa using List.find?_eq_none.1 h k (List.mem_finRange k))
    | some j =>
      have hj : s.key j = true := by simpa using List.find?_some h
      obtain ⟨-, as, bs, hl, hn⟩ := List.find?_eq_some_iff_append.1 h
      have hkj : ¬ k < j := fun hlt => by
        have hs : (as ++ j :: bs).Pairwise (· < ·) := hl ▸ List.pairwise_lt_finRange 16
        have hmem : k ∈ as ++ j :: bs := hl ▸ List.mem_finRange k
        rcases List.mem_append.1 hmem with hka | hkb
        · simpa [hk] using hn k hka
        · rcases List.mem_cons.1 hkb with rfl | hkb
          · exact lt_irrefl _ hlt
          · exact lt_irrefl _ (lt_trans hlt ((List.pairwise_cons.1 (List.pairwise_append.1 hs).2.1).1 k hkb))
      rcases lt_trichotomy j k with hlt | rfl | hlt
      · simp [hmin j hlt] at hj
      · rfl
      · exact absurd hlt hkj

theorem leastKey_eq_none {s : State} : s.leastKey = none ↔ ∀ j, s.key j = false := by
  simp [State.leastKey, List.find?_eq_none]

/-! ### Sprite rows and fetch -/

theorem spriteRows_zero (s : State) : s.spriteRows 0 = .ok [] := rfl

/-- The rows of a sprite are the bytes at I, checked as a whole (43_display.md R123). -/
theorem spriteRows_ok {s : State} {n : Nat} (h : n = 0 ∨ s.i.toNat + n ≤ 4096) : s.spriteRows n = .ok (s.mem.readBytes s.i.toNat n) := by
  by_cases hn : n = 0
  · subst hn; rfl
  · rw [State.spriteRows, if_neg hn, memRead_ok (by omega)]

theorem spriteRows_error {s : State} {n : Nat} (hn : n ≠ 0) (h : 4096 < s.i.toNat + n) : s.spriteRows n = .error .memoryOutOfBounds := by
  rw [State.spriteRows, if_neg hn, memRead_error h]

/-- The opcode at PC when both its bytes are in memory (30_encoding.md R72). -/
theorem fetch_ok {s : State} (h : s.pc.toNat + 2 ≤ 4096) :
    s.fetch = .ok (wordOfBytes (s.mem.readByte s.pc.toNat) (s.mem.readByte (s.pc.toNat + 1))) := by
  simp [State.fetch, memRead_ok h, Memory.readBytes, List.range_succ]

theorem fetch_error {s : State} (h : 4096 < s.pc.toNat + 2) : s.fetch = .error .memoryOutOfBounds := by
  simp [State.fetch, memRead_error h]

end Sys2Proof.Machine
end

