-- ==== Sys2Proof/Laws/PerInstr.lean ====
section
/-! SUPPORT. The family `FixedBits`: every instruction's word shows the mask and match of its row in spec/opcode_table.json
(30_encoding.md R68). -/

namespace Sys2Proof.Laws.FixedBits

/-- The mask and the match of an instruction's row (30_encoding.md R68). -/
def row : Instr → Word × Word
  | .cls => (0xFFFF, 0x00E0)
  | .ret => (0xFFFF, 0x00EE)
  | .sys _ => (0xF000, 0x0000)
  | .jp _ => (0xF000, 0x1000)
  | .call _ => (0xF000, 0x2000)
  | .seImm _ _ => (0xF000, 0x3000)
  | .sneImm _ _ => (0xF000, 0x4000)
  | .seReg _ _ => (0xF00F, 0x5000)
  | .ldImm _ _ => (0xF000, 0x6000)
  | .addImm _ _ => (0xF000, 0x7000)
  | .ldReg _ _ => (0xF00F, 0x8000)
  | .or _ _ => (0xF00F, 0x8001)
  | .and _ _ => (0xF00F, 0x8002)
  | .xor _ _ => (0xF00F, 0x8003)
  | .addReg _ _ => (0xF00F, 0x8004)
  | .sub _ _ => (0xF00F, 0x8005)
  | .shr _ _ => (0xF00F, 0x8006)
  | .subn _ _ => (0xF00F, 0x8007)
  | .shl _ _ => (0xF00F, 0x800E)
  | .sneReg _ _ => (0xF00F, 0x9000)
  | .ldI _ => (0xF000, 0xA000)
  | .jpOff _ => (0xF000, 0xB000)
  | .rnd _ _ => (0xF000, 0xC000)
  | .drw _ _ _ => (0xF000, 0xD000)
  | .skp _ => (0xF0FF, 0xE09E)
  | .sknp _ => (0xF0FF, 0xE0A1)
  | .ldFromDt _ => (0xF0FF, 0xF007)
  | .ldKey _ => (0xF0FF, 0xF00A)
  | .ldDt _ => (0xF0FF, 0xF015)
  | .ldSt _ => (0xF0FF, 0xF018)
  | .addI _ => (0xF0FF, 0xF01E)
  | .ldFont _ => (0xF0FF, 0xF029)
  | .bcd _ => (0xF0FF, 0xF033)
  | .store _ => (0xF0FF, 0xF055)
  | .load _ => (0xF0FF, 0xF065)

/-- The word of `i` agrees with its row on every fixed bit. -/
def Statement (i : Instr) : Prop := encode i &&& (row i).1 = (row i).2

/-! ### Masks, layout by layout -/

/-- AND works on the two parts of a concatenation apart. -/
theorem append_and_append {n m : Nat} (a c : BitVec n) (b d : BitVec m) : (a ++ b) &&& (c ++ d) = (a &&& c) ++ (b &&& d) := by
  apply BitVec.eq_of_getLsbD_eq
  intro i hi
  simp only [BitVec.getLsbD_and, BitVec.getLsbD_append]
  by_cases h : i < m <;> simp [h]

section
variable (a b c d : BitVec 4) (nn : Byte) (nnn : Addr12)

theorem family_mask : (a ++ nnn : Word) &&& 0xF000 = (a ++ 0#12 : Word) := by
  rw [show (0xF000 : Word) = 0xF#4 ++ 0#12 by decide, append_and_append]
  simp [show a &&& 15#4 = a from BitVec.and_allOnes]

theorem family_mask_immediate : (a ++ b ++ nn : Word) &&& 0xF000 = (a ++ 0#12 : Word) := by
  rw [show (0xF000 : Word) = 0xF#4 ++ 0#4 ++ 0#8 by decide, append_and_append, append_and_append,
    show (a ++ 0#12 : Word) = a ++ 0#4 ++ 0#8 by revert a; decide]
  simp [show a &&& 15#4 = a from BitVec.and_allOnes]

theorem family_mask_nibbles : (a ++ b ++ c ++ d : Word) &&& 0xF000 = (a ++ 0#12 : Word) := by
  rw [show (0xF000 : Word) = 0xF#4 ++ 0#4 ++ 0#4 ++ 0#4 by decide, append_and_append, append_and_append, append_and_append,
    show (a ++ 0#12 : Word) = a ++ 0#4 ++ 0#4 ++ 0#4 by revert a; decide]
  simp [show a &&& 15#4 = a from BitVec.and_allOnes]

theorem selector_mask_nibbles : (a ++ b ++ c ++ d : Word) &&& 0xF00F = (a ++ 0#4 ++ 0#4 ++ d : Word) := by
  rw [show (0xF00F : Word) = 0xF#4 ++ 0#4 ++ 0#4 ++ 0xF#4 by decide, append_and_append, append_and_append, append_and_append]
  simp [show a &&& 15#4 = a from BitVec.and_allOnes, show d &&& 15#4 = d from BitVec.and_allOnes]

theorem selector_mask_immediate : (a ++ b ++ nn : Word) &&& 0xF0FF = (a ++ 0#4 ++ nn : Word) := by
  rw [show (0xF0FF : Word) = 0xF#4 ++ 0#4 ++ 0xFF#8 by decide, append_and_append, append_and_append]
  simp [show a &&& 15#4 = a from BitVec.and_allOnes, show nn &&& 255#8 = nn from BitVec.and_allOnes]

end

/-! ### One lemma per instruction -/

section
variable (x y : RegIdx) (n : Fin 16) (nn : Byte) (nnn : Addr12)

theorem cls : Statement .cls := by unfold Statement; decide
theorem ret : Statement .ret := by unfold Statement; decide
theorem sys : Statement (.sys nnn) := family_mask 0x0#4 nnn
theorem jp : Statement (.jp nnn) := family_mask 0x1#4 nnn
theorem call : Statement (.call nnn) := family_mask 0x2#4 nnn
theorem seImm : Statement (.seImm x nn) := family_mask_immediate 0x3#4 (toNibble x) nn
theorem sneImm : Statement (.sneImm x nn) := family_mask_immediate 0x4#4 (toNibble x) nn
theorem seReg : Statement (.seReg x y) := selector_mask_nibbles 0x5#4 (toNibble x) (toNibble y) 0x0#4
theorem ldImm : Statement (.ldImm x nn) := family_mask_immediate 0x6#4 (toNibble x) nn
theorem addImm : Statement (.addImm x nn) := family_mask_immediate 0x7#4 (toNibble x) nn
theorem ldReg : Statement (.ldReg x y) := selector_mask_nibbles 0x8#4 (toNibble x) (toNibble y) 0x0#4
theorem or : Statement (.or x y) := selector_mask_nibbles 0x8#4 (toNibble x) (toNibble y) 0x1#4
theorem and : Statement (.and x y) := selector_mask_nibbles 0x8#4 (toNibble x) (toNibble y) 0x2#4
theorem xor : Statement (.xor x y) := selector_mask_nibbles 0x8#4 (toNibble x) (toNibble y) 0x3#4
theorem addReg : Statement (.addReg x y) := selector_mask_nibbles 0x8#4 (toNibble x) (toNibble y) 0x4#4
theorem sub : Statement (.sub x y) := selector_mask_nibbles 0x8#4 (toNibble x) (toNibble y) 0x5#4
theorem shr : Statement (.shr x y) := selector_mask_nibbles 0x8#4 (toNibble x) (toNibble y) 0x6#4
theorem subn : Statement (.subn x y) := selector_mask_nibbles 0x8#4 (toNibble x) (toNibble y) 0x7#4
theorem shl : Statement (.shl x y) := selector_mask_nibbles 0x8#4 (toNibble x) (toNibble y) 0xE#4
theorem sneReg : Statement (.sneReg x y) := selector_mask_nibbles 0x9#4 (toNibble x) (toNibble y) 0x0#4
theorem ldI : Statement (.ldI nnn) := family_mask 0xA#4 nnn
theorem jpOff : Statement (.jpOff nnn) := family_mask 0xB#4 nnn
theorem rnd : Statement (.rnd x nn) := family_mask_immediate 0xC#4 (toNibble x) nn
theorem drw : Statement (.drw x y n) := family_mask_nibbles 0xD#4 (toNibble x) (toNibble y) (toNibble n)
theorem skp : Statement (.skp x) := selector_mask_immediate 0xE#4 (toNibble x) 0x9E#8
theorem sknp : Statement (.sknp x) := selector_mask_immediate 0xE#4 (toNibble x) 0xA1#8
theorem ldFromDt : Statement (.ldFromDt x) := selector_mask_immediate 0xF#4 (toNibble x) 0x07#8
theorem ldKey : Statement (.ldKey x) := selector_mask_immediate 0xF#4 (toNibble x) 0x0A#8
theorem ldDt : Statement (.ldDt x) := selector_mask_immediate 0xF#4 (toNibble x) 0x15#8
theorem ldSt : Statement (.ldSt x) := selector_mask_immediate 0xF#4 (toNibble x) 0x18#8
theorem addI : Statement (.addI x) := selector_mask_immediate 0xF#4 (toNibble x) 0x1E#8
theorem ldFont : Statement (.ldFont x) := selector_mask_immediate 0xF#4 (toNibble x) 0x29#8
theorem bcd : Statement (.bcd x) := selector_mask_immediate 0xF#4 (toNibble x) 0x33#8
theorem store : Statement (.store x) := selector_mask_immediate 0xF#4 (toNibble x) 0x55#8
theorem load : Statement (.load x) := selector_mask_immediate 0xF#4 (toNibble x) 0x65#8

end

end Sys2Proof.Laws.FixedBits
end

