-- ==== Sys2Proof/Laws/Step.lean ====
section
/-! SUPPORT. What each instruction answers, as one equation over the shared operations, and what a step can do. -/

namespace Sys2Proof.Machine

/-! ### One equation per instruction that always completes -/

section
variable (x y : RegIdx) (n : Fin 16) (nn : Byte) (nnn : Addr12) (s : State)

theorem exec_cls : exec .cls s = .next ((s.setFb Framebuffer.clear).setPc (s.pc + 2)) := rfl
theorem exec_sys : exec (.sys nnn) s = .fault (.unknownOpcode (encode (.sys nnn))) := rfl
theorem exec_jp : exec (.jp nnn) s = .next (s.setPc (zext16 nnn)) := rfl
theorem exec_seImm : exec (.seImm x nn) s = .next (s.setPc (s.pc + if s.getV x == nn then 4 else 2)) := rfl
theorem exec_sneImm : exec (.sneImm x nn) s = .next (s.setPc (s.pc + if s.getV x != nn then 4 else 2)) := rfl
theorem exec_seReg : exec (.seReg x y) s = .next (s.setPc (s.pc + if s.getV x == s.getV y then 4 else 2)) := rfl
theorem exec_sneReg : exec (.sneReg x y) s = .next (s.setPc (s.pc + if s.getV x != s.getV y then 4 else 2)) := rfl
theorem exec_jpOff : exec (.jpOff nnn) s = .next (s.setPc (zext16 nnn + (s.jumpOffset nnn).setWidth 16)) := rfl
theorem exec_ldImm : exec (.ldImm x nn) s = .next ((s.setV x nn).setPc (s.pc + 2)) := rfl
theorem exec_addImm : exec (.addImm x nn) s = .next ((s.setV x (s.getV x + nn)).setPc (s.pc + 2)) := rfl
theorem exec_ldReg : exec (.ldReg x y) s = .next ((s.setV x (s.getV y)).setPc (s.pc + 2)) := rfl
theorem exec_addReg : exec (.addReg x y) s =
    .next ((s.setResultFlag x (s.getV x + s.getV y) (carry (s.getV x) (s.getV y))).setPc (s.pc + 2)) := rfl
theorem exec_sub : exec (.sub x y) s =
    .next ((s.setResultFlag x (s.getV x - s.getV y) (notBorrow (s.getV x) (s.getV y))).setPc (s.pc + 2)) := rfl
theorem exec_subn : exec (.subn x y) s =
    .next ((s.setResultFlag x (s.getV y - s.getV x) (notBorrow (s.getV y) (s.getV x))).setPc (s.pc + 2)) := rfl
theorem exec_shr : exec (.shr x y) s =
    .next ((s.setResultFlag x (s.shiftOperand x y >>> 1) (shiftedOutRight (s.shiftOperand x y))).setPc (s.pc + 2)) := rfl
theorem exec_shl : exec (.shl x y) s =
    .next ((s.setResultFlag x (s.shiftOperand x y <<< 1) (shiftedOutLeft (s.shiftOperand x y))).setPc (s.pc + 2)) := rfl
theorem exec_rnd : exec (.rnd x nn) s = .next ((s.afterRand.setV x (s.nextRand &&& nn)).setPc (s.pc + 2)) := rfl
theorem exec_ldI : exec (.ldI nnn) s = .next ((s.setI (zext16 nnn)).setPc (s.pc + 2)) := rfl
theorem exec_addI : exec (.addI x) s = .next ((s.setI (s.i + (s.getV x).setWidth 16)).setPc (s.pc + 2)) := rfl
theorem exec_ldFont : exec (.ldFont x) s = .next ((s.setI (s.fontAddress (lowNibble (s.getV x)))).setPc (s.pc + 2)) := rfl
theorem exec_skp : exec (.skp x) s = .next (s.setPc (s.pc + if s.key (lowNibble (s.getV x)) then 4 else 2)) := rfl
theorem exec_sknp : exec (.sknp x) s = .next (s.setPc (s.pc + if !s.key (lowNibble (s.getV x)) then 4 else 2)) := rfl
theorem exec_ldFromDt : exec (.ldFromDt x) s = .next ((s.setV x s.dt).setPc (s.pc + 2)) := rfl
theorem exec_ldDt : exec (.ldDt x) s = .next ((s.setDt (s.getV x)).setPc (s.pc + 2)) := rfl
theorem exec_ldSt : exec (.ldSt x) s = .next ((s.setSt (s.getV x)).setPc (s.pc + 2)) := rfl

theorem exec_or : exec (.or x y) s = .next ((s.setLogic x (s.getV x ||| s.getV y)).setPc (s.pc + 2)) := by
  simp [exec, execOr, done]
theorem exec_and : exec (.and x y) s = .next ((s.setLogic x (s.getV x &&& s.getV y)).setPc (s.pc + 2)) := by
  simp [exec, execAnd, done]
theorem exec_xor : exec (.xor x y) s = .next ((s.setLogic x (s.getV x ^^^ s.getV y)).setPc (s.pc + 2)) := by
  simp [exec, execXor, done]

/-! ### The instructions that can raise an error or wait -/

theorem exec_ret_ok {l : List Word} {a : Word} (h : s.stack = l ++ [a]) : exec .ret s = .next ((s.setStack l).setPc a) := by
  simp [exec, execRet, pop_ok h]

theorem exec_ret_error (h : s.stack = []) : exec .ret s = .fault .stackUnderflow := by simp [exec, execRet, pop_error h]

theorem exec_call_ok (h : s.stack.length < 16) :
    exec (.call nnn) s = .next ((s.setStack (s.stack ++ [s.pc + 2])).setPc (zext16 nnn)) := by simp [exec, execCall, push_ok h]

theorem exec_call_error (h : 16 ≤ s.stack.length) : exec (.call nnn) s = .fault .stackOverflow := by
  simp [exec, execCall, push_error h]

theorem exec_ldKey_some {k : Fin 16} (h : s.leastKey = some k) :
    exec (.ldKey x) s = .next ((s.setV x (BitVec.ofNat 8 k.val)).setPc (s.pc + 2)) := by simp [exec, execLdKey, h, done]

theorem exec_ldKey_none (h : s.leastKey = none) : exec (.ldKey x) s = .next s := by simp [exec, execLdKey, h]

theorem exec_bcd_ok (h : s.i.toNat + 3 ≤ 4096) :
    exec (.bcd x) s = .next ((s.setMem (s.mem.writeBytes s.i.toNat (bcdDigits (s.getV x)))).setPc (s.pc + 2)) := by
  simp [exec, execBcd, memWrite_ok (bs := bcdDigits (s.getV x)) h, done]

theorem exec_bcd_error (h : 4096 < s.i.toNat + 3) : exec (.bcd x) s = .fault .memoryOutOfBounds := by
  simp [exec, execBcd, memWrite_error (bs := bcdDigits (s.getV x)) h]

theorem exec_store_ok (h : s.i.toNat + (x.val + 1) ≤ 4096) :
    exec (.store x) s =
      .next (((s.setMem (s.mem.writeBytes s.i.toNat (s.regRange x))).setI (s.rangeEndI x)).setPc (s.pc + 2)) := by
  simp [exec, execStore, memWrite_ok (bs := s.regRange x) (by simpa using h), done]

theorem exec_store_error (h : 4096 < s.i.toNat + (x.val + 1)) : exec (.store x) s = .fault .memoryOutOfBounds := by
  simp [exec, execStore, memWrite_error (bs := s.regRange x) (by simpa using h)]

theorem exec_load_ok (h : s.i.toNat + (x.val + 1) ≤ 4096) :
    exec (.load x) s =
      .next (((s.setRange 0 (s.mem.readBytes s.i.toNat (x.val + 1))).setI (s.rangeEndI x)).setPc (s.pc + 2)) := by
  simp [exec, execLoad, memRead_ok h, done]

theorem exec_load_error (h : 4096 < s.i.toNat + (x.val + 1)) : exec (.load x) s = .fault .memoryOutOfBounds := by
  simp [exec, execLoad, memRead_error h]

/-- What a draw does to the framebuffer and to the collision flag, from the rows it reads. -/
def State.drawn (s : State) (x y : RegIdx) (n : Nat) : Framebuffer × Bool :=
  drawRows ((s.getV x).toNat % 64) ((s.getV y).toNat % 32) (s.mem.readBytes s.i.toNat n) (s.fb, false)

theorem exec_drw_ok (h : n.val = 0 ∨ s.i.toNat + n.val ≤ 4096) :
    exec (.drw x y n) s =
      .next (((s.setFb (s.drawn x y n.val).1).setV vf (flagByte (s.drawn x y n.val).2)).setPc (s.pc + 2)) := by
  simp [exec, execDrw, spriteRows_ok h, done, State.drawn]

theorem exec_drw_error (hn : n.val ≠ 0) (h : 4096 < s.i.toNat + n.val) :
    exec (.drw x y n) s = .fault .memoryOutOfBounds := by
  simp [exec, execDrw, spriteRows_error hn h]

end

/-! ### The other direction: what a next state of each of them says -/

section
variable {x y : RegIdx} {n : Fin 16} {nnn : Addr12} {s t : State}

theorem exec_sys_ne_next : exec (.sys nnn) s ≠ .next t := by simp [exec_sys]

theorem exec_ret_next (h : exec .ret s = .next t) : ∃ l a, s.stack = l ++ [a] ∧ t = (s.setStack l).setPc a := by
  rcases stack_cases s.stack with hs | ⟨l, a, hs⟩
  · simp [exec_ret_error s hs] at h
  · exact ⟨l, a, hs, by simpa [exec_ret_ok s hs] using h.symm⟩

theorem exec_call_next (h : exec (.call nnn) s = .next t) :
    s.stack.length < 16 ∧ t = (s.setStack (s.stack ++ [s.pc + 2])).setPc (zext16 nnn) := by
  by_cases hs : s.stack.length < 16
  · exact ⟨hs, by simpa [exec_call_ok nnn s hs] using h.symm⟩
  · simp [exec_call_error nnn s (Nat.le_of_not_lt hs)] at h

theorem exec_ldKey_next (h : exec (.ldKey x) s = .next t) :
    (∃ k, s.leastKey = some k ∧ t = (s.setV x (BitVec.ofNat 8 k.val)).setPc (s.pc + 2)) ∨ (s.leastKey = none ∧ t = s) := by
  cases hk : s.leastKey with
  | none => exact .inr ⟨rfl, by simpa [exec_ldKey_none x s hk] using h.symm⟩
  | some k => exact .inl ⟨k, rfl, by simpa [exec_ldKey_some x s hk] using h.symm⟩

theorem exec_drw_next (h : exec (.drw x y n) s = .next t) : (n.val = 0 ∨ s.i.toNat + n.val ≤ 4096) ∧
    t = ((s.setFb (s.drawn x y n.val).1).setV vf (flagByte (s.drawn x y n.val).2)).setPc (s.pc + 2) := by
  by_cases hb : n.val = 0 ∨ s.i.toNat + n.val ≤ 4096
  · exact ⟨hb, by simpa [exec_drw_ok x y n s hb] using h.symm⟩
  · simp [exec_drw_error x y n s (by omega) (by omega)] at h

theorem exec_bcd_next (h : exec (.bcd x) s = .next t) : s.i.toNat + 3 ≤ 4096 ∧
    t = (s.setMem (s.mem.writeBytes s.i.toNat (bcdDigits (s.getV x)))).setPc (s.pc + 2) := by
  by_cases hb : s.i.toNat + 3 ≤ 4096
  · exact ⟨hb, by simpa [exec_bcd_ok x s hb] using h.symm⟩
  · simp [exec_bcd_error x s (by omega)] at h

theorem exec_store_next (h : exec (.store x) s = .next t) : s.i.toNat + (x.val + 1) ≤ 4096 ∧
    t = ((s.setMem (s.mem.writeBytes s.i.toNat (s.regRange x))).setI (s.rangeEndI x)).setPc (s.pc + 2) := by
  by_cases hb : s.i.toNat + (x.val + 1) ≤ 4096
  · exact ⟨hb, by simpa [exec_store_ok x s hb] using h.symm⟩
  · simp [exec_store_error x s (by omega)] at h

theorem exec_load_next (h : exec (.load x) s = .next t) : s.i.toNat + (x.val + 1) ≤ 4096 ∧
    t = ((s.setRange 0 (s.mem.readBytes s.i.toNat (x.val + 1))).setI (s.rangeEndI x)).setPc (s.pc + 2) := by
  by_cases hb : s.i.toNat + (x.val + 1) ≤ 4096
  · exact ⟨hb, by simpa [exec_load_ok x s hb] using h.symm⟩
  · simp [exec_load_error x s (by omega)] at h

end

/-! ### A step -/

/-- What a step does, by its phases (30_encoding.md R71). -/
theorem step_cases (s : State) :
    (4096 < s.pc.toNat + 2 ∧ step s = .fault .memoryOutOfBounds) ∨
    (s.pc.toNat + 2 ≤ 4096 ∧ ∃ op, s.fetch = .ok op ∧
      ((∃ i, decode op = .ok i ∧ step s = exec i s) ∨
       (∃ e, decode op = .error e ∧ step s = .fault (.unknownOpcode op)))) := by
  by_cases h : s.pc.toNat + 2 ≤ 4096
  · refine .inr ⟨h, _, fetch_ok h, ?_⟩
    cases hd : decode (wordOfBytes (s.mem.readByte s.pc.toNat) (s.mem.readByte (s.pc.toNat + 1))) with
    | ok i => exact .inl ⟨i, rfl, by simp [step, fetch_ok h, hd]⟩
    | error e => exact .inr ⟨e, rfl, by simp [step, fetch_ok h, hd, raise]⟩
  · exact .inl ⟨by omega, by simp [step, fetch_error (s := s) (by omega)]⟩

/-- A step that ends in a next state executed the instruction it fetched. -/
theorem step_eq_next {s t : State} (h : step s = .next t) :
    s.pc.toNat + 2 ≤ 4096 ∧ ∃ op i, s.fetch = .ok op ∧ decode op = .ok i ∧ exec i s = .next t := by
  rcases step_cases s with ⟨-, hs⟩ | ⟨hpc, op, hf, ⟨i, hd, hs⟩ | ⟨e, hd, hs⟩⟩
  · simp [hs] at h
  · exact ⟨hpc, op, i, hf, hd, hs ▸ h⟩
  · simp [hs] at h

end Sys2Proof.Machine
end

