-- ==== Sys2Proof/Machine/Asm.lean ====
section
/-! DEFINITION. The assembler notation of 30_encoding.md R77: how an instruction is written, and how items become bytes. A notation only;
no meaning depends on it (92_eei_decisions.md D29; log entry 8). -/

namespace Sys2Proof.Machine

/-- One hex digit, in capitals. -/
def hexDigit (k : Nat) : String :=
  match k with
  | 0 => "0" | 1 => "1" | 2 => "2" | 3 => "3" | 4 => "4" | 5 => "5" | 6 => "6" | 7 => "7"
  | 8 => "8" | 9 => "9" | 10 => "A" | 11 => "B" | 12 => "C" | 13 => "D" | 14 => "E" | _ => "F"

/-- A register, V0 to VF. -/
def asmReg (x : RegIdx) : String := "V" ++ hexDigit x.val

/-- A byte, 0xNN. -/
def asmByte (b : Byte) : String := "0x" ++ hexDigit (b.toNat / 16) ++ hexDigit (b.toNat % 16)

/-- An address, 0xNNN. -/
def asmAddr (a : Addr12) : String :=
  "0x" ++ hexDigit (a.toNat / 256) ++ hexDigit (a.toNat / 16 % 16) ++ hexDigit (a.toNat % 16)

/-- A count, 0 to 15, in decimal. -/
def asmCount (n : Fin 16) : String := if n.val < 10 then hexDigit n.val else "1" ++ hexDigit (n.val - 10)

/-- The text of an instruction, with the mnemonics of 30_encoding.md R68. -/
def asmText : Instr → String
  | .cls => "CLS"
  | .ret => "RET"
  | .sys nnn => "SYS " ++ asmAddr nnn
  | .jp nnn => "JP " ++ asmAddr nnn
  | .call nnn => "CALL " ++ asmAddr nnn
  | .seImm x nn => "SE " ++ asmReg x ++ ", " ++ asmByte nn
  | .sneImm x nn => "SNE " ++ asmReg x ++ ", " ++ asmByte nn
  | .seReg x y => "SE " ++ asmReg x ++ ", " ++ asmReg y
  | .ldImm x nn => "LD " ++ asmReg x ++ ", " ++ asmByte nn
  | .addImm x nn => "ADD " ++ asmReg x ++ ", " ++ asmByte nn
  | .ldReg x y => "LD " ++ asmReg x ++ ", " ++ asmReg y
  | .or x y => "OR " ++ asmReg x ++ ", " ++ asmReg y
  | .and x y => "AND " ++ asmReg x ++ ", " ++ asmReg y
  | .xor x y => "XOR " ++ asmReg x ++ ", " ++ asmReg y
  | .addReg x y => "ADD " ++ asmReg x ++ ", " ++ asmReg y
  | .sub x y => "SUB " ++ asmReg x ++ ", " ++ asmReg y
  | .shr x y => "SHR " ++ asmReg x ++ ", " ++ asmReg y
  | .subn x y => "SUBN " ++ asmReg x ++ ", " ++ asmReg y
  | .shl x y => "SHL " ++ asmReg x ++ ", " ++ asmReg y
  | .sneReg x y => "SNE " ++ asmReg x ++ ", " ++ asmReg y
  | .ldI nnn => "LD I, " ++ asmAddr nnn
  | .jpOff nnn => "JP V0, " ++ asmAddr nnn
  | .rnd x nn => "RND " ++ asmReg x ++ ", " ++ asmByte nn
  | .drw x y n => "DRW " ++ asmReg x ++ ", " ++ asmReg y ++ ", " ++ asmCount n
  | .skp x => "SKP " ++ asmReg x
  | .sknp x => "SKNP " ++ asmReg x
  | .ldFromDt x => "LD " ++ asmReg x ++ ", DT"
  | .ldKey x => "LD " ++ asmReg x ++ ", K"
  | .ldDt x => "LD DT, " ++ asmReg x
  | .ldSt x => "LD ST, " ++ asmReg x
  | .addI x => "ADD I, " ++ asmReg x
  | .ldFont x => "LD F, " ++ asmReg x
  | .bcd x => "LD B, " ++ asmReg x
  | .store x => "LD [I], " ++ asmReg x
  | .load x => "LD " ++ asmReg x ++ ", [I]"

/-- One item of a program. -/
inductive AsmItem where
  | instr (i : Instr)
  /-- `DB b`, one data byte -/
  | db (b : Byte)
  /-- `DW w`, a 16-bit word, big-endian -/
  | dw (w : Word)
deriving DecidableEq, Repr

/-- `SHR Vx` without Vy: Y = 0 (30_encoding.md R77). -/
def shrShort (x : RegIdx) : Instr := .shr x 0

/-- `SHL Vx` without Vy: Y = 0 (30_encoding.md R77). -/
def shlShort (x : RegIdx) : Instr := .shl x 0

/-- The bytes of one item. -/
def AsmItem.bytes : AsmItem → List Byte
  | .instr i => bytesOfWord (encode i)
  | .db b => [b]
  | .dw w => bytesOfWord w

/-- The ROM image of a program. -/
def assemble (items : List AsmItem) : List Byte := items.flatMap AsmItem.bytes

end Sys2Proof.Machine
end

