-- ==== Sys2Proof/Tests/Slice0.lean ====
section
/-! SUPPORT. Tests. Their expected results are the vectors of spec/95_test_vectors.md (the id stands in each name or comment) and the words
written out from the encodings of 30_encoding.md. The last part holds, for every statement with hypotheses, a state that meets them. -/

namespace Sys2Proof.Tests

open Sys2Proof.Machine

/-! ### Reading a result -/

def nextV (r : Result) (x : RegIdx) : Option Byte := match r with | .next t => some (t.getV x) | _ => none
def nextPc (r : Result) : Option Word := match r with | .next t => some t.pc | _ => none
def nextI (r : Result) : Option Word := match r with | .next t => some t.i | _ => none
def nextStack (r : Result) : Option (List Word) := match r with | .next t => some t.stack | _ => none
def nextBytes (r : Result) (a n : Nat) : Option (List Byte) := match r with | .next t => some (t.mem.readBytes a n) | _ => none
def nextPixel (r : Result) (x : Fin 64) (y : Fin 32) : Option Bool := match r with | .next t => some (t.fb.get x y) | _ => none
def nextTimers (r : Result) : Option (Byte × Byte) := match r with | .next t => some (t.dt, t.st) | _ => none
def errorOf (r : Result) : Option Fault := match r with | .fault e => some e | _ => none

/-! ### Small states -/

/-- The state after reset with a word at PC. -/
def at200 (w : Nat) : State := State.reset.withFetchWord 16 w
/-- The state after reset with V0 and V1. -/
def v01 (a b : Byte) : State := (State.reset.setV 0 a).setV 1 b
/-- The same machine with other parameters. -/
def withParams (p : Config.Params) (s : State) : State := { s with params := p }
def mem300 (bs : List Byte) (s : State) : State := (s.setMem (Memory.writeBytes [] 0x300 bs)).setI 0x300

/-! ### WellFormed: the ill-formed terms are refused -/

theorem test_sys_0E0_is_ill_formed : (Instr.sys 0x0E0).wellFormed = false := by decide
theorem test_sys_0EE_is_ill_formed : (Instr.sys 0x0EE).wellFormed = false := by decide
theorem test_sys_000_is_well_formed : (Instr.sys 0x000).wellFormed = true := by decide

/-! ### Decoding: one word of every form -/

theorem test_decode_cls : decode 0b0000000011100000 = .ok .cls := by decide
theorem test_decode_ret : decode 0b0000000011101110 = .ok .ret := by decide
theorem test_decode_sys : decode 0b0000000100100011 = .ok (.sys 0x123) := by decide
theorem test_decode_jp : decode 0b0001001000110100 = .ok (.jp 0x234) := by decide
theorem test_decode_call : decode 0b0010001000001010 = .ok (.call 0x20A) := by decide
theorem test_decode_seImm : decode 0b0011101000000101 = .ok (.seImm 0xA 0x05) := by decide
theorem test_decode_sneImm : decode 0b0100000110000000 = .ok (.sneImm 1 0x80) := by decide
theorem test_decode_seReg : decode 0b0101001000110000 = .ok (.seReg 2 3) := by decide
theorem test_decode_ldImm : decode 0b0110101011111010 = .ok (.ldImm 0xA 0xFA) := by decide
theorem test_decode_addImm : decode 0b0111000011111111 = .ok (.addImm 0 0xFF) := by decide
theorem test_decode_ldReg : decode 0b1000000000010000 = .ok (.ldReg 0 1) := by decide
theorem test_decode_or : decode 0b1000111100010001 = .ok (.or 0xF 1) := by decide
theorem test_decode_and : decode 0b1000000011110010 = .ok (.and 0 0xF) := by decide
theorem test_decode_xor : decode 0b1000000000010011 = .ok (.xor 0 1) := by decide
theorem test_decode_addReg : decode 0b1000000000010100 = .ok (.addReg 0 1) := by decide
theorem test_decode_sub : decode 0b1000111100000101 = .ok (.sub 0xF 0) := by decide
theorem test_decode_shr : decode 0b1000000000010110 = .ok (.shr 0 1) := by decide
theorem test_decode_subn : decode 0b1000000000010111 = .ok (.subn 0 1) := by decide
theorem test_decode_shl : decode 0b1000000000011110 = .ok (.shl 0 1) := by decide
theorem test_decode_sneReg : decode 0b1001001000110000 = .ok (.sneReg 2 3) := by decide
theorem test_decode_ldI : decode 0b1010000100100011 = .ok (.ldI 0x123) := by decide
theorem test_decode_jpOff : decode 0b1011001100000000 = .ok (.jpOff 0x300) := by decide
theorem test_decode_rnd : decode 0b1100001100001111 = .ok (.rnd 3 0x0F) := by decide
theorem test_decode_drw : decode 0b1101000000011111 = .ok (.drw 0 1 15) := by decide
theorem test_decode_skp : decode 0b1110000110011110 = .ok (.skp 1) := by decide
theorem test_decode_sknp : decode 0b1110000110100001 = .ok (.sknp 1) := by decide
theorem test_decode_ldFromDt : decode 0b1111001000000111 = .ok (.ldFromDt 2) := by decide
theorem test_decode_ldKey : decode 0b1111000100001010 = .ok (.ldKey 1) := by decide
theorem test_decode_ldDt : decode 0b1111000000010101 = .ok (.ldDt 0) := by decide
theorem test_decode_ldSt : decode 0b1111000000011000 = .ok (.ldSt 0) := by decide
theorem test_decode_addI : decode 0b1111001000011110 = .ok (.addI 2) := by decide
theorem test_decode_ldFont : decode 0b1111010000101001 = .ok (.ldFont 4) := by decide
theorem test_decode_bcd : decode 0b1111101000110011 = .ok (.bcd 0xA) := by decide
theorem test_decode_store : decode 0b1111001001010101 = .ok (.store 2) := by decide
theorem test_decode_load : decode 0b1111001001100101 = .ok (.load 2) := by decide

/-- Vectors F5 to F12: words that are no instruction. -/
theorem test_decode_unknown : [0x0123, 0x5121, 0x8018, 0x801F, 0x9121, 0xE000, 0xF000, 0x00E1].all
    (fun w => (classify (BitVec.ofNat 16 w)).isNone) = true := by decide

/-- An instruction is two bytes, high byte first, and the rest of the bytes is left. -/
theorem test_decodeBytes : decodeBytes [0x6A, 0xFA, 0x77] = .ok (.ldImm 0xA 0xFA, [0x77]) := by decide
theorem test_decodeBytes_truncated : decodeBytes [0x6A] = .error (.truncated 1) := by decide
theorem test_decodeTableWord : decodeTableWord 16 0xD015 = some (.drw 0 1 5) := by decide

/-! ### Fetch, decode and errors -/

/-- F1 -/
theorem test_step_at_FFE :
    nextPc (step ((State.reset.setPc 0xFFE).setMem (Memory.writeBytes [] 0xFFE [0x10, 0x00]))) = some 0x000 := by decide
/-- F2 -/
theorem test_step_at_FFF : errorOf (step (State.reset.setPc 0xFFF)) = some .memoryOutOfBounds := by decide
/-- F4: an odd PC -/
theorem test_step_at_201 :
    let r := step ((State.reset.setPc 0x201).setMem (Memory.writeBytes [] 0x201 [0x60, 0x42]))
    nextV r 0 = some 0x42 ∧ nextPc r = some 0x203 := by decide
/-- S3 -/
theorem test_step_empty_rom : errorOf (step State.reset) = some (.unknownOpcode 0x0000) := by decide
/-- F6 -/
theorem test_step_5121 : errorOf (step (at200 0x5121)) = some (.unknownOpcode 0x5121) := by decide
/-- P6: a one-byte ROM -/
theorem test_one_byte_rom :
    ((construct Config.Params.default [0x12]).toOption.map fun s => (s.mem.readBytes 0x200 2, nextPc (step s))) =
      some ([0x12, 0x00], some 0x200) := by decide
/-- The codes of 60_exceptions.md R135. -/
theorem test_codes : [Fault.romTooLarge, .memoryOutOfBounds, .unknownOpcode 0, .stackOverflow, .stackUnderflow, .invalidKeyIndex].map
    Fault.code = [0, 1, 2, 3, 4, 5] := by decide

/-! ### Control flow -/

/-- F5 -/
theorem test_sys : errorOf (exec (.sys 0x123) State.reset) = some (.unknownOpcode 0x0123) := by decide
/-- C7 -/
theorem test_ret : let r := exec .ret (State.reset.setStack [0x202, 0x40A])
    nextPc r = some 0x40A ∧ nextStack r = some [0x202] := by decide
/-- C8 -/
theorem test_ret_empty : errorOf (exec .ret State.reset) = some .stackUnderflow := by decide
/-- C1 -/
theorem test_jp : nextPc (exec (.jp 0x234) State.reset) = some 0x234 := by decide
/-- C4 -/
theorem test_call : let r := exec (.call 0x300) (State.reset.setStack (List.replicate 15 0x206))
    nextPc r = some 0x300 ∧ nextStack r = some (List.replicate 15 0x206 ++ [0x202]) := by decide
/-- C5 -/
theorem test_call_full : errorOf (exec (.call 0x300) (State.reset.setStack (List.replicate 16 0x206))) = some .stackOverflow := by decide
/-- C9, C10 -/
theorem test_seImm : nextPc (exec (.seImm 0xA 5) (State.reset.setV 0xA 5)) = some 0x204 ∧
    nextPc (exec (.seImm 0xA 5) (State.reset.setV 0xA 6)) = some 0x202 := by decide
/-- C11, C12 -/
theorem test_sneImm : nextPc (exec (.sneImm 1 0) (State.reset.setV 1 1)) = some 0x204 ∧
    nextPc (exec (.sneImm 1 0) State.reset) = some 0x202 := by decide
/-- C14 -/
theorem test_seReg : nextPc (exec (.seReg 2 3) ((State.reset.setV 2 0x7F).setV 3 0x7F)) = some 0x204 := by decide
/-- C16, C17 -/
theorem test_sneReg : nextPc (exec (.sneReg 2 3) ((State.reset.setV 2 1).setV 3 2)) = some 0x204 ∧
    nextPc (exec (.sneReg 2 2) (State.reset.setV 2 1)) = some 0x202 := by decide
/-- C19 -/
theorem test_jpOff : nextPc (exec (.jpOff 0xFFF) (State.reset.setV 0 0xFF)) = some 0x10FE := by decide
/-- C21 -/
theorem test_jpOff_vx : nextPc (exec (.jpOff 0x300)
    (withParams { Config.Params.default with jumpOffsetReg := .vx } ((State.reset.setV 0 0x10).setV 3 1))) = some 0x301 := by decide
/-- C22 -/
theorem test_skip_past_end : nextPc (step ((State.reset.setPc 0xFFE).setMem (Memory.writeBytes [] 0xFFE [0x30, 0x00]))) = some 0x1002 := by
  decide

/-! ### Registers and ALU -/

/-- A1 -/
theorem test_ldImm : nextV (exec (.ldImm 0xA 0xFF) State.reset) 0xA = some 0xFF := by decide
/-- A2 -/
theorem test_addImm : let r := exec (.addImm 0 1) ((State.reset.setV 0 0xFF).setV 0xF 0x55)
    nextV r 0 = some 0 ∧ nextV r 0xF = some 0x55 := by decide
/-- A4 -/
theorem test_ldReg : nextV (exec (.ldReg 0 1) (v01 0 0x3C)) 0 = some 0x3C := by decide
/-- A5 -/
theorem test_or : let r := exec (.or 0 1) ((v01 0xF0 0x0F).setV 0xF 7)
    nextV r 0 = some 0xFF ∧ nextV r 0xF = some 7 := by decide
/-- A6 -/
theorem test_or_resets_vf :
    let r := exec (.or 0 1) (withParams { Config.Params.default with logicResetsVf := true } ((v01 0xF0 0x0F).setV 0xF 7))
    nextV r 0 = some 0xFF ∧ nextV r 0xF = some 0 := by decide
/-- A7 -/
theorem test_and : nextV (exec (.and 0 1) (v01 0xF0 0x3C)) 0 = some 0x30 := by decide
/-- A8 -/
theorem test_xor : nextV (exec (.xor 0 1) (v01 0xFF 0x0F)) 0 = some 0xF0 := by decide
/-- S10 -/
theorem test_addReg : let r := exec (.addReg 0 1) (v01 250 10)
    nextV r 0 = some 4 ∧ nextV r 0xF = some 1 := by decide
/-- A14: the flag wins -/
theorem test_addReg_vf : nextV (exec (.addReg 0xF 0) ((v01 1 0).setV 0xF 0xFF)) 0xF = some 1 := by decide
/-- S12 -/
theorem test_sub : let r := exec (.sub 0 1) (v01 10 20)
    nextV r 0 = some 246 ∧ nextV r 0xF = some 0 := by decide
/-- A16 -/
theorem test_sub_equal : let r := exec (.sub 0 1) (v01 0x33 0x33)
    nextV r 0 = some 0 ∧ nextV r 0xF = some 1 := by decide
/-- A19 -/
theorem test_shr : let r := exec (.shr 0 0) (v01 5 0)
    nextV r 0 = some 2 ∧ nextV r 0xF = some 1 := by decide
/-- A22 -/
theorem test_shr_vy : let r := exec (.shr 0 1) (withParams { Config.Params.default with shiftSource := .vy } (v01 0 3))
    nextV r 0 = some 1 ∧ nextV r 0xF = some 1 := by decide
/-- A24 -/
theorem test_subn : let r := exec (.subn 0 1) (v01 0x14 0x0A)
    nextV r 0 = some 0xF6 ∧ nextV r 0xF = some 0 := by decide
/-- A26: the flag wins -/
theorem test_subn_vf : nextV (exec (.subn 0xF 0) ((v01 6 0).setV 0xF 5)) 0xF = some 1 := by decide
/-- A27 -/
theorem test_shl : let r := exec (.shl 0 0) (v01 0x81 0)
    nextV r 0 = some 2 ∧ nextV r 0xF = some 1 := by decide
/-- A30: the meaning of CXNN with the draw given -/
theorem test_rnd : nextV (rndWith 0xA7 3 0x0F State.reset) 3 = some 0x07 := by decide

/-! ### Index and memory -/

/-- M1 -/
theorem test_ldI : nextI (exec (.ldI 0x123) State.reset) = some 0x123 := by decide
/-- M3 -/
theorem test_addI : nextI (exec (.addI 0) ((State.reset.setV 0 1).setI 0xFFFF)) = some 0 := by decide
/-- M5 -/
theorem test_ldFont : nextI (exec (.ldFont 0) (State.reset.setV 0 0x1A)) = some 0x032 := by decide
/-- M7 -/
theorem test_ldFont_base : nextI (exec (.ldFont 0)
    (withParams { Config.Params.default with fontBase := 0x050 } (State.reset.setV 0 0x0F))) = some 0x09B := by decide
/-- M8 -/
theorem test_bcd : nextBytes (exec (.bcd 0xA) ((State.reset.setV 0xA 0x9C).setI 0x300)) 0x300 3 = some [1, 5, 6] := by decide
/-- M13 -/
theorem test_bcd_past_end : errorOf (exec (.bcd 0) (State.reset.setI 0xFFE)) = some .memoryOutOfBounds := by decide
/-- M17 -/
theorem test_store :
    let p := { Config.Params.default with loadStoreIncrement := .x }
    let r := exec (.store 2) (withParams p (((v01 0x11 0x22).setV 2 0x33).setI 0x300))
    nextBytes r 0x2FF 5 = some [0, 0x11, 0x22, 0x33, 0] ∧ nextI r = some 0x302 := by decide
/-- M19 -/
theorem test_store_past_end : errorOf (exec (.store 2) (State.reset.setI 0xFFE)) = some .memoryOutOfBounds := by decide
/-- M21 -/
theorem test_load : let r := exec (.load 0) (mem300 [0x42, 0x43] (State.reset.setV 1 0x99))
    nextV r 0 = some 0x42 ∧ nextV r 1 = some 0x99 ∧ nextI r = some 0x300 := by decide
/-- M22 -/
theorem test_load_past_end : errorOf (exec (.load 0xF) (State.reset.setI 0xFF1)) = some .memoryOutOfBounds := by decide
/-- M24 -/
theorem test_font : let m := constructMemory { Config.Params.default with fontPreload := true } []
    m.readBytes 0 5 = [0xF0, 0x90, 0x90, 0x90, 0xF0] ∧ m.readBytes 0x4B 5 = [0xF0, 0x80, 0xF0, 0x80, 0x80] := by decide

/-! ### Display -/

/-- D1 -/
theorem test_cls : let r := exec .cls ((State.reset.setFb (Framebuffer.clear.set 63 31 true)).setV 0xF 9)
    nextPixel r 63 31 = some false ∧ nextV r 0xF = some 9 := by decide
/-- D4: wrap on both axes -/
theorem test_drw : let r := exec (.drw 0 1 2) (mem300 [0xF0, 0x81] (v01 0x3C 0x1F))
    nextPixel r 60 31 = some true ∧ nextPixel r 63 31 = some true ∧ nextPixel r 60 0 = some true ∧ nextPixel r 3 0 = some true ∧
      nextPixel r 0 31 = some false ∧ nextV r 0xF = some 0 := by decide
/-- D3: a collision -/
theorem test_drw_collision : let r := exec (.drw 0 1 1) (mem300 [0x80] (State.reset.setFb (Framebuffer.clear.set 0 0 true)))
    nextPixel r 0 0 = some false ∧ nextV r 0xF = some 1 := by decide

/-! ### Keypad and timers -/

/-- K2 -/
theorem test_skp : nextPc (exec (.skp 1) ((State.reset.setKey 7 true).setV 1 0x17)) = some 0x204 := by decide
/-- K5 -/
theorem test_sknp : nextPc (exec (.sknp 1) ((State.reset.setKey 7 true).setV 1 7)) = some 0x202 := by decide
/-- K6 -/
theorem test_ldKey : let r := exec (.ldKey 3) ((State.reset.setKey 9 true).setKey 3 true)
    nextV r 3 = some 3 ∧ nextPc r = some 0x202 := by decide
/-- K8 -/
theorem test_ldKey_waits : nextPc (exec (.ldKey 3) State.reset) = some 0x200 := by decide
/-- K9 -/
theorem test_ldFromDt : nextV (exec (.ldFromDt 2) (State.reset.setDt 1)) 2 = some 1 := by decide
/-- K10 -/
theorem test_ldDt : nextTimers (exec (.ldDt 0) (State.reset.setV 0 3)) = some (3, 0) := by decide
/-- K12 -/
theorem test_ldSt : nextTimers (exec (.ldSt 0) (State.reset.setV 0 3)) = some (0, 3) := by decide
/-- K14, K15 -/
theorem test_tick : let s := tick ((State.reset.setDt 1).setSt 5)
    (s.dt, s.st) = (0, 4) ∧ ((tick State.reset).dt, (tick State.reset).st) = (0, 0) := by decide
/-- K16, K17 -/
theorem test_press : (applyOp (.press 15) State.reset).1.key 15 = true ∧ (applyOp (.press 16) State.reset).2 = .err .invalidKeyIndex := by
  decide

/-! ### The assembler notation -/

theorem test_asm_text : asmText (.drw 0 10 15) = "DRW V0, VA, 15" ∧ asmText (.ldI 0x20E) = "LD I, 0x20E" := by decide
/-- The first words of program P3, and a data byte. -/
theorem test_assemble : assemble [.instr (.ldI 0x20E), .instr (shrShort 1), .dw 0x1234, .db 0xF0] =
    [0xA2, 0x0E, 0x81, 0x06, 0x12, 0x34, 0xF0] := by decide

/-! ### Witnesses: states and operands that meet the hypotheses of the statements -/

theorem witness_EncodeThenDecodeIsIdentity : (Instr.drw 0xF 0 15).wellFormed = true := by decide
theorem witness_DecodeThenEncodeIsIdentity : decode 0xDF0F = .ok (.drw 0xF 0 15) := by decide
theorem witness_EveryPatternDecodesToItsForm : (0x0E1 : Addr12) ≠ 0x0E0 ∧ (0x0E1 : Addr12) ≠ 0x0EE := by decide
/-- Each clause of StepRunsTheFetchedInstruction, FetchIsBigEndianAndBounded and UnknownOpcodeChangesNothing. -/
theorem witness_step_clauses :
    Fetched (at200 0x00E0) .cls ∧ (State.reset.setPc 0xFFF).fetch = .error .memoryOutOfBounds ∧
    (at200 0x5121).fetch = .ok 0x5121 ∧ classify 0x5121 = none ∧
    (State.reset.setPc 0xFFE).pc.toNat + 1 < 4096 ∧ 4096 ≤ (State.reset.setPc 0xFFF).pc.toNat + 1 :=
  ⟨⟨0x00E0, by decide, by decide⟩, by decide, by decide, by decide, by decide, by decide⟩
theorem witness_step_next : ∃ t, step (at200 0x1200) = .next t := ⟨_, rfl⟩
theorem witness_step_fault : step (at200 0x00EE) = .fault .stackUnderflow := rfl
theorem witness_ErrorsLeaveTheStateUnchanged :
    (applyOp (.press 16) State.reset).2 = .err .invalidKeyIndex ∧ (applyOp .step State.reset).2 = .err (.unknownOpcode 0x0000) := by decide
theorem witness_ErrorRepeatsWhateverTheHostDoes : step State.reset = .fault (.unknownOpcode 0x0000) := rfl
theorem witness_PcAfterExecutionIsTheTables : ∃ t, exec .ret (State.reset.setStack [0x206]) = .next t := ⟨_, rfl⟩
/-- Each clause of EachPartHasOnlyItsListedWriters. -/
theorem witness_writer_v : ∃ t, exec (.addReg 0 1) (v01 250 10) = .next t ∧ t.getV 0 ≠ (v01 250 10).getV 0 ∧
    t.getV vf ≠ (v01 250 10).getV vf := ⟨_, rfl, by decide, by decide⟩
/-- The clause on V at the edges of a row: FX65 with X = 2 writes V2 and not V3; OR writes VF only under LOGIC_RESETS_VF. -/
theorem witness_writer_v_edges : mayWriteV (.load 2) Config.Params.default 2 ∧ ¬ mayWriteV (.load 2) Config.Params.default 3 ∧
    ¬ mayWriteV (.or 0 1) Config.Params.default vf ∧ mayWriteV (.or 0 1) { Config.Params.default with logicResetsVf := true } vf := by
  simp only [mayWriteV]; decide
theorem witness_writer_stack : ∃ t, exec (.call 0x300) State.reset = .next t ∧ t.stack ≠ State.reset.stack := ⟨_, rfl, by decide⟩
theorem witness_writer_dt : ∃ t, exec (.ldDt 0) (State.reset.setV 0 3) = .next t ∧ t.dt ≠ State.reset.dt := ⟨_, rfl, by decide⟩
theorem witness_writer_st : ∃ t, exec (.ldSt 0) (State.reset.setV 0 3) = .next t ∧ t.st ≠ State.reset.st := ⟨_, rfl, by decide⟩
theorem witness_writer_fb : ∃ t, exec (.drw 0 1 1) (mem300 [0x80] State.reset) = .next t ∧ t.fb ≠ State.reset.fb := ⟨_, rfl, by decide⟩
theorem witness_writer_mem : ∃ t, exec (.bcd 0) (State.reset.setV 0 7) = .next t ∧ t.mem ≠ State.reset.mem := ⟨_, rfl, by decide⟩
theorem witness_writer_draws : ∃ t, exec (.rnd 0 0) State.reset = .next t ∧ t.rngDraws ≠ State.reset.rngDraws := ⟨_, rfl, by decide⟩
theorem witness_writer_i : ∃ t, exec (.ldI 0x300) State.reset = .next t ∧ t.i ≠ State.reset.i := ⟨_, rfl, by decide⟩
theorem witness_RomTooLargeExactlyPast3584 :
    3584 < (List.replicate 3585 (0 : Byte)).length ∧ (List.replicate 3584 (0 : Byte)).length ≤ 3584 :=
  ⟨by rw [List.length_replicate]; decide, by rw [List.length_replicate]⟩
/-- The font at its highest legal base. -/
def font432 : Config.Params := { Config.Params.default with fontBase := 432, fontPreload := true }
/-- ConstructLeavesTheResetState, with a font and a ROM. -/
theorem witness_ConstructLeavesTheResetState : font432.wf ∧ ∃ s, construct font432 [0x12] = .ok s :=
  ⟨by simp [font432, Config.Params.wf, Config.fontBytes, Config.loadAddr], _, if_neg (by decide)⟩
/-- A ROM byte, and the last byte of that font. -/
theorem test_construct_bytes : (constructMemory font432 [0x12]).readByte 0x1FF = 0x80 ∧
    (constructMemory font432 [0x12]).readByte 0x200 = 0x12 := by decide +kernel
theorem witness_StepKeepsTheInvariant : (at200 0x1200).Inv ∧ ∃ t, step (at200 0x1200) = .next t :=
  ⟨⟨by decide, by decide, fun _ h => absurd h (List.not_mem_nil), by decide, by decide⟩, witness_step_next⟩
theorem witness_ReachableStatesMeetTheInvariant : Reachable State.reset := .construct Config.Params.default [] _ (by decide) rfl
theorem witness_RetPopsIntoPc : (State.reset.setStack [0x202, 0x40A]).stack = [0x202] ++ [0x40A] ∧ State.reset.stack = [] := by decide
theorem witness_JpSetsPc : State.reset.pc.toNat = (0x200 : Addr12).toNat := by decide
theorem witness_SelfJumpRunsForever : Fetched (at200 0x1200) (.jp 0x200) ∧ (at200 0x1200).pc.toNat = (0x200 : Addr12).toNat :=
  ⟨⟨0x1200, by decide, by decide⟩, by decide⟩
/-- CallPushesAndJumps and CallThenRetComesBack, at both sides of the bound. -/
theorem witness_call_clauses : (State.reset.setStack (List.replicate 15 0)).stack.length < 16 ∧
    (State.reset.setStack (List.replicate 16 0)).stack.length = 16 := by decide
/-- The clauses of SkipOnImmediate and SkipOnRegister. -/
theorem witness_skip_clauses : (v01 5 5).getV 0 = 5 ∧ (v01 5 5).getV 0 = (v01 5 5).getV 1 ∧ (v01 5 6).getV 0 ≠ 6 ∧
    (v01 5 6).getV 0 ≠ (v01 5 6).getV 1 := by decide
theorem witness_JumpWithOffset : State.reset.params.jumpOffsetReg = .v0 ∧
    (withParams { Config.Params.default with jumpOffsetReg := .vx } State.reset).params.jumpOffsetReg = .vx ∧
    (0xF : RegIdx).val = (0xFFF : Addr12).toNat / 256 := by decide
theorem witness_LogicOperations : State.reset.params.logicResetsVf = false ∧
    (withParams { Config.Params.default with logicResetsVf := true } State.reset).params.logicResetsVf = true := by decide
/-- The hypothesis of AddSetsCarry and SubtractSetsNotBorrow, and their flags' bounds: sums 255 and 256, equal operands. -/
theorem witness_flag_clauses : (0 : RegIdx) ≠ vf ∧ ¬ 255 < ((v01 255 0).getV 0).toNat + ((v01 255 0).getV 1).toNat ∧
    255 < ((v01 255 1).getV 0).toNat + ((v01 255 1).getV 1).toNat ∧ ((v01 9 9).getV 1).toNat ≤ ((v01 9 9).getV 0).toNat := by decide
theorem witness_ShiftsSetTheBitShiftedOut : (v01 5 3).params.shiftSource = .vx ∧ (5 : Byte) = (v01 5 3).getV 0 ∧
    (withParams { Config.Params.default with shiftSource := .vy } (v01 5 3)).params.shiftSource = .vy ∧ (3 : Byte) = (v01 5 3).getV 1 := by
  decide
theorem witness_BcdStoresThreeDigits : (State.reset.setI 0xFFD).mem.wf = true ∧ (State.reset.setI 0xFFD).i.toNat + 3 ≤ 4096 ∧
    4096 < (State.reset.setI 0xFFE).i.toNat + 3 := by decide
/-- StoreRegisterRange and LoadRegisterRange, at both sides of the bound. -/
theorem witness_range_clauses : (State.reset.setI 0xFF0).mem.wf = true ∧ (State.reset.setI 0xFF0).i.toNat + (15 : RegIdx).val + 1 ≤ 4096 ∧
    4096 < (State.reset.setI 0xFF1).i.toNat + (15 : RegIdx).val + 1 ∧ (15 : RegIdx) ≤ 15 := by decide
/-- StoredBytesAreFetched, both storing forms: V0 and V1 at 0x300, and the digits of 0x9C there. -/
theorem witness_StoredBytesAreFetched_store : ∃ t, (v01 0x12 0x34).mem.wf = true ∧ exec (.store 1) ((v01 0x12 0x34).setI 0x300) = .next t ∧
    [(0x12 : Byte), 0x34].length = (1 : RegIdx).val + 1 ∧
    (∀ r : RegIdx, r ≤ 1 → [(0x12 : Byte), 0x34][r.val]? = some (((v01 0x12 0x34).setI 0x300).getV r)) :=
  ⟨_, by decide, rfl, rfl, by decide⟩
theorem witness_StoredBytesAreFetched_bcd : ∃ t, (v01 0x9C 0).mem.wf = true ∧ exec (.bcd 0) ((v01 0x9C 0).setI 0x300) = .next t ∧
    [(1 : Byte), 5, 6].map BitVec.toNat = [((v01 0x9C 0).getV 0).toNat / 100, ((v01 0x9C 0).getV 0).toNat / 10 % 10,
      ((v01 0x9C 0).getV 0).toNat % 10] := ⟨_, by decide, rfl, by decide⟩
/-- The fetches on both edges of the stored bytes and at the end of memory: an older byte and a stored one, a stored one and an older one. -/
theorem witness_StoredBytesAreFetched_edges :
    (byteOver [] 0x300 [0x12, 0x34] 0x2FF, byteOver [] 0x300 [0x12, 0x34] 0x300) = (0, 0x12) ∧
    (byteOver [] 0x300 [0x12, 0x34] 0x301, byteOver [] 0x300 [0x12, 0x34] 0x302) = (0x34, 0) ∧
    (State.reset.setPc 0xFFE).pc.toNat + 1 < 4096 := by decide
/-- The clauses of DrawXorsTheSprite: no row with I past the end, one row at the last byte, two rows there. -/
theorem witness_draw_clauses : (0 : Fin 16).val = 0 ∧ (State.reset.setI 0xFFF).i.toNat + (1 : Fin 16).val ≤ 4096 ∧
    (2 : Fin 16).val ≠ 0 ∧ 4096 < (State.reset.setI 0xFFF).i.toNat + (2 : Fin 16).val := by decide
/-- A pixel on which a set bit falls, and one on which none does. -/
theorem witness_SpriteBitAt : SpriteBitAt [0x80] 63 31 63 31 ∧ ¬ SpriteBitAt [] 63 31 63 31 :=
  ⟨⟨0, 0, by decide, by decide, by decide, by decide, by decide⟩, fun ⟨_, _, h, _⟩ => absurd h (Nat.not_lt_zero _)⟩
theorem witness_CollisionFlagMeansAPixelWasCleared :
    ∃ t, exec (.drw 0 1 1) (mem300 [0x80] (State.reset.setFb (Framebuffer.clear.set 0 0 true))) = .next t := ⟨_, rfl⟩
/-- The second draw in the state the first left. -/
theorem witness_SecondDrawRestoresTheScreen : ∃ t, exec (.drw 0 1 1) (mem300 [0x80] State.reset) = .next t ∧
    t.i = (mem300 [0x80] State.reset).i ∧ t.mem = (mem300 [0x80] State.reset).mem ∧ t.getV 0 = State.reset.getV 0 ∧
    t.getV 1 = State.reset.getV 1 := ⟨_, rfl, by decide, by decide, by decide, by decide⟩
theorem witness_SkipOnKey : (7 : Fin 16).val = ((State.reset.setV 1 0x17).getV 1).toNat % 16 := by decide
theorem witness_KeyWait : ((State.reset.setKey 9 true).setKey 3 true).key 3 = true ∧
    (∀ j : Fin 16, j < 3 → ((State.reset.setKey 9 true).setKey 3 true).key j = false) ∧ (∀ k, State.reset.key k = false) := by decide
theorem witness_KeyWaitHoldsUntilAPress : Fetched (at200 0xF30A) (.ldKey 3) ∧ (∀ k, (at200 0xF30A).key k = false) ∧
    (∀ op ∈ [HostOp.step, .tick, .release 3, .step], ∀ k, op ≠ .press k) :=
  ⟨⟨0xF30A, by decide, by decide⟩, by decide, by simp⟩
/-- DelayReadsDifferExactlyAfterATick: F107 at 0x200 and 0x202, DT = 1, one TICK between. -/
def twoReads : State := (State.reset.setMem (Memory.writeBytes [] 0x200 [0xF1, 0x07, 0xF2, 0x07])).setDt 1
def afterRead : State := (twoReads.setV 1 1).setPc 0x202
theorem witness_DelayReads_first : Fetched twoReads (.ldFromDt 1) ∧ step twoReads = .next afterRead :=
  ⟨⟨0xF107, by decide, by decide⟩, rfl⟩
theorem witness_DelayReads_second : Fetched (runOps [.tick] afterRead) (.ldFromDt 2) ∧
    (∃ v, step (runOps [.tick] afterRead) = .next v) ∧ 0 < (runOps [] afterRead).dt.toNat :=
  ⟨⟨0xF207, by decide, by decide⟩, ⟨_, rfl⟩, by decide⟩
theorem witness_DelayReads_between : ∀ before after, [HostOp.tick] = before ++ .step :: after →
    ∀ z, ¬ Fetched (runOps before afterRead) (.ldDt z) := by
  intro before after h
  rcases before with _ | ⟨a, _ | ⟨b, l⟩⟩ <;> simp at h
theorem witness_KeypadIsTheHostsAndSoundTimerIsUnread : (∃ t, exec (.ldFromDt 2) State.reset = .next t) ∧
    exec .ret State.reset = .fault .stackUnderflow := ⟨⟨_, rfl⟩, rfl⟩
/-- Both ways ST can come out: FX18 writes the same value whatever ST was, FX07 leaves it. -/
theorem witness_SoundTimer_clauses : nextTimers (exec (.ldSt 0) ((State.reset.setV 0 3).setSt 9)) = some (0, 3) ∧
    nextTimers (exec (.ldFromDt 2) (State.reset.setSt 9)) = some (0, 9) := by decide
theorem witness_PressAndReleaseSetOneKey : 15 < 16 := by decide

end Sys2Proof.Tests
end

/-! ## The step cycle: fetch, unknown opcodes, and PC after execution (30_encoding.md R71 to R76) -/

namespace Sys2Proof

/-! ### SYS and the Unknown words -/

/-- SYS is the only form without an effect (30_encoding.md R68, last paragraph). -/
theorem Instr.hasEffect_eq_false {i : Instr} : i.hasEffect = false ↔ ∃ nnn, i = .sys nnn := by
  cases i <;> simp [Instr.hasEffect]

/-- R69's Unknown words are those that decode to nothing and those that decode to SYS (log entry 3). -/
theorem classify_eq_none {op : Word} :
    classify op = none ↔ (∃ e, decode op = .error e) ∨ ∃ nnn, decode op = .ok (.sys nnn) := by
  cases hd : decode op with
  | error e => simp [classify, hd]
  | ok i => simp [classify, hd, Instr.hasEffect_eq_false]

/-- Only the family 0 decodes to SYS, with the word's own address. -/
theorem decode_eq_sys {op : Word} {nnn : Addr12} (h : decode op = .ok (.sys nnn)) :
    fieldN1 op = 0#4 ∧ fieldNNN op = nnn := by
  unfold decode at h
  split at h
  case h_1 family =>
    split_ifs at h
    · cases h
    · cases h
    · cases h
      exact ⟨family, rfl⟩
  -- every other family gives another form, or none
  all_goals (repeat' split at h) <;> cases h

/-- The word that a SYS carries is the word it was decoded from. -/
theorem encode_of_decode_sys {op : Word} {nnn : Addr12} (h : decode op = .ok (.sys nnn)) : encode (.sys nnn) = op := by
  obtain ⟨family, address⟩ := decode_eq_sys h
  calc encode (.sys nnn) = fieldN1 op ++ fieldNNN op := by rw [family, address]; rfl
    _ = op := address_of_fields op

/-- The word of two bytes is big-endian (20_memory.md R47). -/
theorem wordOfBytes_toNat (hi lo : Byte) : (wordOfBytes hi lo).toNat = 256 * hi.toNat + lo.toNat := by
  rw [wordOfBytes, append_toNat]
  omega

end Sys2Proof

namespace Sys2Proof.Machine

/-! ### The phases of a step -/

section
variable {s : State} {op : Word}

theorem step_of_fetch_error {e : Fault} (hf : s.fetch = .error e) : step s = .fault e := by
  simp [step, hf]

theorem step_of_decode_ok {i : Instr} (hf : s.fetch = .ok op) (hd : decode op = .ok i) : step s = exec i s := by
  simp [step, hf, hd]

theorem step_of_decode_error {e : DecodeReject} (hf : s.fetch = .ok op) (hd : decode op = .error e) :
    step s = .fault (.unknownOpcode op) := by
  simp [step, hf, hd, raise_eq]

/-- Both kinds of Unknown word end in the same error: decode raises it, or SYS does (40_control_flow.md R90). -/
theorem step_of_unknown (hf : s.fetch = .ok op) (hc : classify op = none) : step s = .fault (.unknownOpcode op) := by
  rcases classify_eq_none.1 hc with ⟨e, hd⟩ | ⟨nnn, hd⟩
  · exact step_of_decode_error hf hd
  · rw [step_of_decode_ok hf hd, exec_sys, encode_of_decode_sys hd]

/-! ### The host's view of a step (60_exceptions.md R141) -/

theorem applyOp_step_of_fault {e : Fault} (h : step s = .fault e) : applyOp .step s = (s, .err e) := by
  simp [applyOp, h, settleStep]

/-- A STEP that returns an error leaves the whole state as it was. -/
theorem applyOp_step_err {e : Fault} (h : (applyOp .step s).2 = .err e) : (applyOp .step s).1 = s := by
  cases hs : step s with
  | next t => simp [applyOp, hs, settleStep] at h
  | fault e' => rw [applyOp_step_of_fault hs]
  | refused r => simp [applyOp, hs, settleStep] at h

end

/-! ### PC after an execution (30_encoding.md R75) -/

section
variable {i : Instr} {s t : State}

/-- The PC an instruction leaves, read off the equation of its execution. -/
theorem pc_of_exec_eq {u : State} {w : Word} (equation : exec i s = .next (u.setPc w)) (h : exec i s = .next t) :
    t.pc = w := by
  rw [equation] at h
  cases h
  rfl

theorem pcAfter_jpOff (nnn : Addr12) (s : State) :
    pcAfter (.jpOff nnn) s = zext16 nnn + (s.jumpOffset nnn).setWidth 16 := by
  cases hp : s.params.jumpOffsetReg <;> simp [pcAfter, State.jumpOffset, hp]

theorem pcAfter_ret {l : List Word} {a : Word} (h : s.stack = l ++ [a]) : pcAfter .ret s = a := by
  simp [pcAfter, h]

theorem pcAfter_ldKey_of_some {k : Fin 16} (h : s.leastKey = some k) (x : RegIdx) : pcAfter (.ldKey x) s = s.pc + 2 := by
  have pressed : ∃ k, s.key k = true := ⟨k, (leastKey_eq_some.1 h).1⟩
  simp only [pcAfter, if_pos pressed]

theorem pcAfter_ldKey_of_none (h : s.leastKey = none) (x : RegIdx) : pcAfter (.ldKey x) s = s.pc := by
  simp [pcAfter, leastKey_eq_none.1 h]

theorem pc_of_exec (h : exec i s = .next t) : t.pc = pcAfter i s := by
  cases i with
  | cls => exact pc_of_exec_eq (exec_cls s) h
  | ret =>
    obtain ⟨l, a, hs, rfl⟩ := exec_ret_next h
    exact (pcAfter_ret hs).symm
  | sys nnn => exact absurd h exec_sys_ne_next
  | jp nnn => exact pc_of_exec_eq (exec_jp nnn s) h
  | call nnn =>
    obtain ⟨-, rfl⟩ := exec_call_next h
    rfl
  | seImm x nn => simpa [pcAfter] using pc_of_exec_eq (exec_seImm x nn s) h
  | sneImm x nn => simpa [pcAfter] using pc_of_exec_eq (exec_sneImm x nn s) h
  | seReg x y => simpa [pcAfter] using pc_of_exec_eq (exec_seReg x y s) h
  | ldImm x nn => exact pc_of_exec_eq (exec_ldImm x nn s) h
  | addImm x nn => exact pc_of_exec_eq (exec_addImm x nn s) h
  | ldReg x y => exact pc_of_exec_eq (exec_ldReg x y s) h
  | or x y => exact pc_of_exec_eq (exec_or x y s) h
  | and x y => exact pc_of_exec_eq (exec_and x y s) h
  | xor x y => exact pc_of_exec_eq (exec_xor x y s) h
  | addReg x y => exact pc_of_exec_eq (exec_addReg x y s) h
  | sub x y => exact pc_of_exec_eq (exec_sub x y s) h
  | shr x y => exact pc_of_exec_eq (exec_shr x y s) h
  | subn x y => exact pc_of_exec_eq (exec_subn x y s) h
  | shl x y => exact pc_of_exec_eq (exec_shl x y s) h
  | sneReg x y => simpa [pcAfter] using pc_of_exec_eq (exec_sneReg x y s) h
  | ldI nnn => exact pc_of_exec_eq (exec_ldI nnn s) h
  | jpOff nnn => exact (pc_of_exec_eq (exec_jpOff nnn s) h).trans (pcAfter_jpOff nnn s).symm
  | rnd x nn => exact pc_of_exec_eq (exec_rnd x nn s) h
  | drw x y n =>
    obtain ⟨-, rfl⟩ := exec_drw_next h
    rfl
  | skp x => exact pc_of_exec_eq (exec_skp x s) h
  | sknp x => simpa [pcAfter] using pc_of_exec_eq (exec_sknp x s) h
  | ldFromDt x => exact pc_of_exec_eq (exec_ldFromDt x s) h
  | ldKey x =>
    rcases exec_ldKey_next h with ⟨k, hk, rfl⟩ | ⟨hk, rfl⟩
    · exact (pcAfter_ldKey_of_some hk x).symm
    · exact (pcAfter_ldKey_of_none hk x).symm
  | ldDt x => exact pc_of_exec_eq (exec_ldDt x s) h
  | ldSt x => exact pc_of_exec_eq (exec_ldSt x s) h
  | addI x => exact pc_of_exec_eq (exec_addI x s) h
  | ldFont x => exact pc_of_exec_eq (exec_ldFont x s) h
  | bcd x =>
    obtain ⟨-, rfl⟩ := exec_bcd_next h
    rfl
  | store x =>
    obtain ⟨-, rfl⟩ := exec_store_next h
    rfl
  | load x =>
    obtain ⟨-, rfl⟩ := exec_load_next h
    rfl

theorem stack_of_exec_call {nnn : Addr12} (h : exec (.call nnn) s = .next t) : t.stack = s.stack ++ [s.pc + 2] := by
  obtain ⟨-, rfl⟩ := exec_call_next h
  rfl

end

/-! ### The obligations of this part -/

/-- Settles O14: the PC of each instruction is read off the equation of its execution. -/
theorem pcAfterExecutionIsTheTables : Obligations.PcAfterExecutionIsTheTables :=
  ⟨fun _ _ _ => pc_of_exec, fun _ _ _ => stack_of_exec_call, fun _ _ h => congrArg State.pc (applyOp_step_err h)⟩

/-- Settles O8: the fetch is one checked read of the two bytes at PC. -/
theorem fetchIsBigEndianAndBounded : Obligations.FetchIsBigEndianAndBounded := by
  intro s
  constructor
  · intro past
    have failed : s.fetch = .error .memoryOutOfBounds := fetch_error (by omega)
    exact ⟨failed, step_of_fetch_error failed⟩
  · intro inside
    exact ⟨_, fetch_ok (by omega), wordOfBytes_toNat _ _⟩

/-- Settles O9: an Unknown word raises in decode or in SYS, and an error keeps the state. -/
theorem unknownOpcodeChangesNothing : Obligations.UnknownOpcodeChangesNothing := by
  intro s op hf hc
  have raised := step_of_unknown hf hc
  exact ⟨raised, applyOp_step_of_fault raised⟩

end Sys2Proof.Machine

/-! ## The display: CLS and the collision flag of DXYN (43_display.md R122, R125) -/

namespace Sys2Proof

/-- CLS is one word of the family 0 (30_encoding.md R68). -/
theorem decode_eq_cls {op : Word} : decode op = .ok .cls ↔ op = 0x00E0 := by
  constructor
  · intro h
    unfold decode at h
    split at h
    case h_1 =>
      split_ifs at h with isCls
      · exact isCls
      · cases h
      · cases h
    -- every other family gives another form, or none
    all_goals (repeat' split at h) <;> cases h
  · rintro rfl
    decide

end Sys2Proof

namespace Sys2Proof.Machine

/-! ### A flag's byte (10_state.md R23) -/

@[simp] theorem flagByte_eq_one {c : Bool} : flagByte c = 1 ↔ c = true := by cases c <;> decide

@[simp] theorem flagByte_eq_zero {c : Bool} : flagByte c = 0 ↔ c = false := by cases c <;> decide

/-! ### What a display instruction leaves alone -/

/-- Replacing the framebuffer and PC touches no other part. -/
theorem frame_setFb_setPc (s : State) (fb : Framebuffer) (w : Word) : Frame { fb := true } s ((s.setFb fb).setPc w) where
  regs _ _ := rfl
  i _ := rfl
  stack _ := rfl
  dt _ := rfl
  st _ := rfl
  fb absent := nomatch absent
  draws _ := rfl
  keys := rfl
  params := rfl
  bytes _ _ := rfl

/-! ### A collision is a pixel cleared (43_display.md R125) -/

/-- The pixels a sprite clears are the set pixels its bits fall on: a bit inverts its pixel, and no other pixel changes. -/
theorem drawRows_clears {x0 y : Nat} {rows : List Byte} (h : rows.length ≤ 32) (acc : Framebuffer × Bool)
    {px : Fin 64} {py : Fin 32} (wasSet : acc.1.get px py = true) :
    (drawRows x0 y rows acc).1.get px py = false ↔ SpriteBitAt rows x0 y px py := by
  obtain ⟨inverted, kept⟩ := (drawRows_spec x0 rows y acc h).1 px py
  by_cases bit : SpriteBitAt rows x0 y px py
  · simp [inverted bit, wasSet, bit]
  · simp [kept bit, wasSet, bit]

/-- A draw reports a collision exactly when it cleared a pixel. -/
theorem drawn_collision (s : State) (x y : RegIdx) (n : Fin 16) :
    (s.drawn x y n.val).2 = true ↔ ∃ px py, s.fb.get px py = true ∧ (s.drawn x y n.val).1.get px py = false := by
  have short : (s.mem.readBytes s.i.toNat n.val).length ≤ 32 := by
    rw [Memory.readBytes_length]
    omega
  rw [State.drawn, (drawRows_spec _ _ _ (s.fb, false) short).2]
  constructor
  · rintro (absent | ⟨px, py, bit, wasSet⟩)
    · cases absent
    · exact ⟨px, py, wasSet, (drawRows_clears short _ wasSet).2 bit⟩
  · rintro ⟨px, py, wasSet, cleared⟩
    exact .inr ⟨px, py, (drawRows_clears short _ wasSet).1 cleared, wasSet⟩

/-! ### The obligations of this part -/

/-- Settles O47: VF takes the collision flag of the draw, and the flag says that a pixel was cleared. -/
theorem collisionFlagMeansAPixelWasCleared : Obligations.CollisionFlagMeansAPixelWasCleared := by
  intro x y n s t h
  obtain ⟨-, rfl⟩ := exec_drw_next h
  have flag : ∀ fb b, (((s.setFb fb).setV vf b).setPc (s.pc + 2)).getV vf = b := by simp
  rw [flag, flagByte_eq_one, flagByte_eq_zero, ← Bool.not_eq_true]
  exact ⟨drawn_collision s x y n, not_congr (drawn_collision s x y n)⟩

/-- Settles O45: CLS stores the framebuffer with no pixel set. -/
theorem clsClearsEveryPixel : Obligations.ClsClearsEveryPixel :=
  ⟨fun _ => decode_eq_cls, fun s =>
    ⟨_, exec_cls s, Framebuffer.get_clear, rfl, frame_setFb_setPc s Framebuffer.clear (s.pc + 2)⟩⟩

end Sys2Proof.Machine

/-! ## The keypad is the host's, and no instruction reads ST (44_keypad_timers.md R134) -/

namespace Sys2Proof.Machine

/-! ### Executing leaves the keypad alone -/

theorem keys_of_exec {i : Instr} {s t : State} (h : exec i s = .next t) : t.keys = s.keys := by
  cases i with
  | sys nnn => exact absurd h exec_sys_ne_next
  | ret =>
    obtain ⟨l, a, -, rfl⟩ := exec_ret_next h
    rfl
  | call nnn =>
    obtain ⟨-, rfl⟩ := exec_call_next h
    rfl
  | or x y | and x y | xor x y =>
    cases h
    exact State.setLogic_keys s x _
  | drw x y n =>
    obtain ⟨-, rfl⟩ := exec_drw_next h
    rfl
  | ldKey x =>
    rcases exec_ldKey_next h with ⟨k, -, rfl⟩ | ⟨-, rfl⟩ <;> rfl
  | bcd x =>
    obtain ⟨-, rfl⟩ := exec_bcd_next h
    rfl
  | store x =>
    obtain ⟨-, rfl⟩ := exec_store_next h
    rfl
  | load x =>
    obtain ⟨-, rfl⟩ := exec_load_next h
    exact State.setRange_keys s 0 _
  | _ =>
    -- every other form always completes, through writes of its own that are none of the keypad
    cases h
    rfl

/-- Whatever a STEP returns, it leaves the keypad alone. -/
theorem applyOp_step_keys (s : State) : (applyOp .step s).1.keys = s.keys := by
  cases hs : step s with
  | next t =>
    obtain ⟨-, op, i, -, -, executed⟩ := step_eq_next hs
    simpa [applyOp, hs, settleStep] using keys_of_exec executed
  | fault e => rw [applyOp_step_of_fault hs]
  | refused r => simp [applyOp, hs, settleStep]

/-! ### ST passes through every execution but FX18's -/

/-- A result with `v` for the ST of its next state. -/
def withSt (v : Byte) : Result → Result
  | .next t => .next (t.setSt v)
  | .fault e => .fault e
  | .refused r => .refused r

section
variable {i : Instr} {s t : State} {v : Byte}

@[simp] theorem withSt_next : withSt v (.next t) = .next (t.setSt v) := rfl

@[simp] theorem withSt_fault (e : Fault) : withSt v (.fault e) = .fault e := rfl

@[simp] theorem withSt_eq_fault {r : Result} {e : Fault} : withSt v r = .fault e ↔ r = .fault e := by
  cases r <;> simp [withSt]

/-- FX18 writes the same value over every ST. -/
theorem exec_ldSt_setSt (x : RegIdx) (s : State) (v : Byte) : exec (.ldSt x) (s.setSt v) = exec (.ldSt x) s := rfl

/-- An instruction that does not write ST does with another ST what it did, and hands that ST on. -/
theorem exec_setSt (writesNoSt : ∀ x, i ≠ .ldSt x) (s : State) (v : Byte) : exec i (s.setSt v) = withSt v (exec i s) := by
  cases i with
  | ldSt x => exact absurd rfl (writesNoSt x)
  | ret =>
    rcases stack_cases s.stack with empty | ⟨l, a, top⟩
    · rw [exec_ret_error s empty, exec_ret_error (s.setSt v) empty, withSt_fault]
    · rw [exec_ret_ok s top, exec_ret_ok (s.setSt v) top]
      rfl
  | call nnn =>
    by_cases room : s.stack.length < 16
    · rw [exec_call_ok nnn s room, exec_call_ok nnn (s.setSt v) room]
      rfl
    · have full := Nat.le_of_not_lt room
      rw [exec_call_error nnn s full, exec_call_error nnn (s.setSt v) full, withSt_fault]
  | or x y | and x y | xor x y => exact congrArg done (State.setSt_setLogic s v x _)
  | drw x y n =>
    by_cases inside : n.val = 0 ∨ s.i.toNat + n.val ≤ 4096
    · rw [exec_drw_ok x y n s inside, exec_drw_ok x y n (s.setSt v) inside]
      rfl
    · have rows : n.val ≠ 0 := by omega
      have past : 4096 < s.i.toNat + n.val := by omega
      rw [exec_drw_error x y n s rows past, exec_drw_error x y n (s.setSt v) rows past, withSt_fault]
  | ldKey x =>
    cases least : s.leastKey with
    | none => rw [exec_ldKey_none x s least, exec_ldKey_none x (s.setSt v) least, withSt_next]
    | some k =>
      rw [exec_ldKey_some x s least, exec_ldKey_some x (s.setSt v) least]
      rfl
  | bcd x =>
    by_cases inside : s.i.toNat + 3 ≤ 4096
    · rw [exec_bcd_ok x s inside, exec_bcd_ok x (s.setSt v) inside]
      rfl
    · have past := Nat.lt_of_not_le inside
      rw [exec_bcd_error x s past, exec_bcd_error x (s.setSt v) past, withSt_fault]
  | store x =>
    by_cases inside : s.i.toNat + (x.val + 1) ≤ 4096
    · rw [exec_store_ok x s inside, exec_store_ok x (s.setSt v) inside]
      rfl
    · have past := Nat.lt_of_not_le inside
      rw [exec_store_error x s past, exec_store_error x (s.setSt v) past, withSt_fault]
  | load x =>
    by_cases inside : s.i.toNat + (x.val + 1) ≤ 4096
    · rw [exec_load_ok x s inside, exec_load_ok x (s.setSt v) inside, State.setSt_setRange]
      rfl
    · have past := Nat.lt_of_not_le inside
      rw [exec_load_error x s past, exec_load_error x (s.setSt v) past, withSt_fault]
  | _ =>
    -- every other form always completes, and neither its operands nor its writes look at ST
    rfl

/-- An instruction that does not write ST leaves it: with the old ST handed on, the outcome is the one it had. -/
theorem st_of_exec (writesNoSt : ∀ x, i ≠ .ldSt x) (h : exec i s = .next t) : t.st = s.st := by
  have same : exec i s = withSt s.st (exec i s) := exec_setSt writesNoSt s s.st
  rw [h, withSt_next, Host.Outcome.next.injEq] at same
  exact (congrArg State.st same).trans (State.setSt_st t s.st)

theorem exec_setSt_fault (i : Instr) (s : State) (v : Byte) (e : Fault) :
    exec i s = .fault e ↔ exec i (s.setSt v) = .fault e := by
  by_cases writes : ∃ x, i = .ldSt x
  · obtain ⟨x, rfl⟩ := writes
    rw [exec_ldSt_setSt]
  · rw [exec_setSt (not_exists.1 writes), withSt_eq_fault]

theorem exec_setSt_next (v : Byte) (h : exec i s = .next t) :
    ∃ t', exec i (s.setSt v) = .next t' ∧ t'.setSt t.st = t ∧ (t'.st = t.st ∨ (t.st = s.st ∧ t'.st = v)) := by
  by_cases writes : ∃ x, i = .ldSt x
  · obtain ⟨x, rfl⟩ := writes
    exact ⟨t, h, rfl, .inl rfl⟩
  · have writesNoSt := not_exists.1 writes
    exact ⟨t.setSt v, by rw [exec_setSt writesNoSt, h, withSt_next], rfl, .inr ⟨st_of_exec writesNoSt h, rfl⟩⟩

end

/-! ### The keypad after the host's operations (60_exceptions.md R152, R153) -/

section
variable {j : Nat} (k : Fin 16) (s : State)

theorem applyOp_press_ok (h : j < 16) : applyOp (.press j) s = (s.setKey ⟨j, h⟩ true, .ok) := by
  simp [applyOp, press, h, settle]

theorem applyOp_press_error (h : 15 < j) : applyOp (.press j) s = (s, .err .invalidKeyIndex) := by
  simp [applyOp, press, show ¬ j < 16 by omega, settle]

theorem applyOp_release_ok (h : j < 16) : applyOp (.release j) s = (s.setKey ⟨j, h⟩ false, .ok) := by
  simp [applyOp, release, h, settle]

theorem applyOp_release_error (h : 15 < j) : applyOp (.release j) s = (s, .err .invalidKeyIndex) := by
  simp [applyOp, release, show ¬ j < 16 by omega, settle]

/-- `setKey_key` with the key's number, as PRESS and RELEASE take it. -/
theorem key_setKey_mk (h : j < 16) (p : Bool) : (s.setKey ⟨j, h⟩ p).key k = if j = k.val then p else s.key k := by
  simp only [State.setKey_key, Fin.ext_iff, eq_comm]

theorem key_applyOp_press (j : Nat) : (applyOp (.press j) s).1.key k = if j = k.val then true else s.key k := by
  by_cases h : j < 16
  · rw [applyOp_press_ok s h, key_setKey_mk]
  · rw [applyOp_press_error s (by omega), if_neg (by omega)]

theorem key_applyOp_release (j : Nat) : (applyOp (.release j) s).1.key k = if j = k.val then false else s.key k := by
  by_cases h : j < 16
  · rw [applyOp_release_ok s h, key_setKey_mk]
  · rw [applyOp_release_error s (by omega), if_neg (by omega)]

theorem key_applyOp (op : HostOp) : (applyOp op s).1.key k = lastKeyEvent k [op] (s.key k) := by
  cases op with
  | step => exact congrArg (fun keys : Vector Bool 16 => keys[k]) (applyOp_step_keys s)
  | tick => rfl
  | press j => exact key_applyOp_press k s j
  | release j => exact key_applyOp_release k s j
  | readFb => rfl
  | soundActive => rfl

/-- The last event of a sequence, from what its first operation left. -/
theorem lastKeyEvent_cons (op : HostOp) (ops : List HostOp) (before : Bool) :
    lastKeyEvent k (op :: ops) before = lastKeyEvent k ops (lastKeyEvent k [op] before) := by
  cases op <;> rfl

theorem key_runOps (ops : List HostOp) : (runOps ops s).key k = lastKeyEvent k ops (s.key k) := by
  induction ops generalizing s with
  | nil => rfl
  | cons op ops ih => rw [runOps, ih, key_applyOp, ← lastKeyEvent_cons]

end

/-! ### The obligation of this part -/

/-- Settles O55: an execution keeps the keypad and hands ST on (FX18 overwrites it), and each host operation leaves a key as its own event
says. -/
theorem keypadIsTheHostsAndSoundTimerIsUnread : Obligations.KeypadIsTheHostsAndSoundTimerIsUnread :=
  ⟨fun _ _ _ => keys_of_exec, fun i s v => ⟨exec_setSt_fault i s v, fun _ => exec_setSt_next v⟩,
    fun ops s k => key_runOps k s ops⟩

end Sys2Proof.Machine

/-! ## CONSTRUCT, TICK and the views of the host (60_exceptions.md R139, R150, R155, R157) -/

namespace Sys2Proof.Machine

/-! ### CONSTRUCT's one check -/

section
variable {p : Config.Params} {rom : List Byte}

theorem construct_error (h : 3584 < rom.length) : construct p rom = .error .romTooLarge := if_pos h

theorem construct_ok (h : rom.length ≤ 3584) :
    construct p rom = .ok { State.reset with mem := constructMemory p rom, params := p } := if_neg (Nat.not_lt.2 h)

end

/-! ### A timer's byte -/

/-- A byte is above 0 as a number exactly when it is not the byte 0. -/
theorem byte_toNat_pos {b : Byte} : 0 < b.toNat ↔ b ≠ 0 :=
  (BitVec.toNat_pos b).trans (BitVec.pos_iff_ne_zero b)

/-- The countdown of one timer: guarded at 0, the subtraction of bytes does not wrap. -/
theorem countdown_toNat (b : Byte) : (if b = 0 then 0 else b - 1).toNat = if 0 < b.toNat then b.toNat - 1 else 0 := by
  by_cases zero : b = 0
  · simp [zero]
  · have positive : 0 < b.toNat := byte_toNat_pos.2 zero
    have noWrap : (1 : Byte) ≤ b := positive
    rw [if_neg zero, if_pos positive, BitVec.toNat_sub_of_le noWrap]
    rfl

/-! ### TICK -/

theorem tick_dt_toNat (s : State) : (tick s).dt.toNat = if 0 < s.dt.toNat then s.dt.toNat - 1 else 0 := countdown_toNat s.dt

theorem tick_st_toNat (s : State) : (tick s).st.toNat = if 0 < s.st.toNat then s.st.toNat - 1 else 0 := countdown_toNat s.st

/-- TICK writes the timers and no other part. -/
theorem frame_tick (s : State) : Frame { dt := true, st := true } s (tick s) where
  regs _ _ := rfl
  i _ := rfl
  stack _ := rfl
  dt absent := nomatch absent
  st absent := nomatch absent
  fb _ := rfl
  draws _ := rfl
  keys := rfl
  params := rfl
  bytes _ _ := rfl

/-! ### READ_FB and SOUND_ACTIVE -/

/-- The column of a row-major index. -/
theorem wrapColumn_rowMajor (x : Fin 64) (y : Fin 32) : wrapColumn (y.val * 64 + x.val) = x := by
  ext
  simp only [wrapColumn]
  omega

/-- The row of a row-major index. -/
theorem wrapRow_rowMajor (x : Fin 64) (y : Fin 32) : wrapRow ((y.val * 64 + x.val) / 64) = y := by
  ext
  simp only [wrapRow]
  omega

theorem readFb_rowMajor (s : State) (x : Fin 64) (y : Fin 32) : (readFb s)[y.val * 64 + x.val]? = some (s.fb.get x y) := by
  have inside : y.val * 64 + x.val < 2048 := by omega
  rw [Vector.getElem?_eq_getElem inside, readFb, Vector.getElem_ofFn, wrapColumn_rowMajor, wrapRow_rowMajor]

theorem soundActive_iff (s : State) : soundActive s = true ↔ 0 < s.st.toNat := by
  rw [soundActive, bne_iff_ne, byte_toNat_pos]

/-! ### The obligations of this part -/

/-- Settles O16: CONSTRUCT makes one check, of the ROM's length. -/
theorem romTooLargeExactlyPast3584 : Obligations.RomTooLargeExactlyPast3584 :=
  fun _ _ => ⟨construct_error, fun fits => ⟨_, construct_ok fits⟩⟩

/-- Settles O56: each timer counts down without wrapping, and TICK has no other write. -/
theorem tickCountsBothTimersDown : Obligations.TickCountsBothTimersDown :=
  fun s => ⟨rfl, tick_dt_toNat s, tick_st_toNat s, rfl, frame_tick s⟩

/-- Settles O58: a row-major index gives back its column and row, and the views answer with the state they were given. -/
theorem viewsReadTheScreenAndTheSoundTimer : Obligations.ViewsReadTheScreenAndTheSoundTimer :=
  fun s => ⟨⟨readFb s, rfl, readFb_rowMajor s⟩, ⟨soundActive s, rfl, soundActive_iff s⟩⟩

end Sys2Proof.Machine

/-! ## Two reads of DT and the TICKs between them (70_reset_and_hazards.md R171) -/

namespace Sys2Proof.Machine

/-! ### One execution and DT -/

section
variable {i : Instr} {s t : State}

/-- FX15 is the only instruction that writes DT. -/
theorem dt_of_exec (writesNoDt : ∀ x, i ≠ .ldDt x) (h : exec i s = .next t) : t.dt = s.dt := by
  cases i with
  | ldDt x => exact absurd rfl (writesNoDt x)
  | sys nnn => exact absurd h exec_sys_ne_next
  | ret =>
    obtain ⟨l, a, -, rfl⟩ := exec_ret_next h
    rfl
  | call nnn => simp [(exec_call_next h).2]
  | or x y | and x y | xor x y =>
    cases h
    exact State.setLogic_dt s x _
  | drw x y n => simp [(exec_drw_next h).2]
  | ldKey x =>
    rcases exec_ldKey_next h with ⟨k, -, rfl⟩ | ⟨-, rfl⟩ <;> rfl
  | bcd x => simp [(exec_bcd_next h).2]
  | store x => simp [(exec_store_next h).2]
  | load x => simp [(exec_load_next h).2]
  | _ =>
    -- every other form always completes, through writes of its own that are none of DT
    cases h
    rfl

/-- A step of a fetched FX07 stores DT in its register and keeps DT. -/
theorem step_ldFromDt {x : RegIdx} (fetched : Fetched s (.ldFromDt x)) (h : step s = .next t) :
    t.getV x = s.dt ∧ t.dt = s.dt := by
  obtain ⟨op, hf, hd⟩ := fetched
  rw [step_of_decode_ok hf hd, exec_ldFromDt] at h
  cases h
  simp

end

/-! ### One host operation and DT -/

section
variable {s : State} {op : HostOp}

/-- Whatever a STEP returns, it keeps DT when it fetches no FX15. -/
theorem applyOp_step_dt (noLdDt : ∀ z, ¬ Fetched s (.ldDt z)) : (applyOp .step s).1.dt = s.dt := by
  cases hs : step s with
  | next t =>
    obtain ⟨-, op, i, hf, hd, executed⟩ := step_eq_next hs
    have writesNoDt : ∀ z, i ≠ .ldDt z := fun z isLdDt => noLdDt z ⟨op, hf, isLdDt ▸ hd⟩
    simpa [applyOp, hs, settleStep] using dt_of_exec writesNoDt executed
  | fault e => rw [applyOp_step_of_fault hs]
  | refused r => simp [applyOp, hs, settleStep]

/-- A TICK that finds DT above 0 takes one from it, and every other operation but a STEP of an FX15 keeps DT. -/
theorem applyOp_dt_cases (noLdDt : op = .step → ∀ z, ¬ Fetched s (.ldDt z)) :
    ((op = .tick ∧ 0 < s.dt.toNat) ∧ (applyOp op s).1.dt.toNat < s.dt.toNat) ∨
    (¬ (op = .tick ∧ 0 < s.dt.toNat) ∧ (applyOp op s).1.dt = s.dt) := by
  cases op with
  | tick =>
    have counted : (applyOp .tick s).1.dt.toNat = if 0 < s.dt.toNat then s.dt.toNat - 1 else 0 := tick_dt_toNat s
    by_cases positive : 0 < s.dt.toNat
    · rw [if_pos positive] at counted
      exact .inl ⟨⟨rfl, positive⟩, by omega⟩
    · rw [if_neg positive] at counted
      exact .inr ⟨fun found => positive found.2, BitVec.eq_of_toNat_eq (by omega)⟩
  | step => exact .inr ⟨nofun, applyOp_step_dt (noLdDt rfl)⟩
  | press k =>
    refine .inr ⟨nofun, ?_⟩
    by_cases isKey : k < 16
    · simp [applyOp_press_ok s isKey]
    · rw [applyOp_press_error s (by omega)]
  | release k =>
    refine .inr ⟨nofun, ?_⟩
    by_cases isKey : k < 16
    · simp [applyOp_release_ok s isKey]
    · rw [applyOp_release_error s (by omega)]
  | readFb => exact .inr ⟨nofun, rfl⟩
  | soundActive => exact .inr ⟨nofun, rfl⟩

end

/-! ### A sequence of host operations and DT -/

/-- No STEP of the sequence fetches an FX15. -/
def StepsFetchNoLdDt (ops : List HostOp) (s : State) : Prop :=
  ∀ before after, ops = before ++ .step :: after → ∀ z, ¬ Fetched (runOps before s) (.ldDt z)

/-- Some TICK of the sequence finds DT above 0. -/
def SomeTickFindsDt (ops : List HostOp) (s : State) : Prop :=
  ∃ before after, ops = before ++ .tick :: after ∧ 0 < (runOps before s).dt.toNat

section
variable {s : State} {op : HostOp} {ops : List HostOp}

theorem StepsFetchNoLdDt.head (h : StepsFetchNoLdDt (op :: ops) s) (isStep : op = .step) (z : RegIdx) :
    ¬ Fetched s (.ldDt z) :=
  h [] ops (congrArg (· :: ops) isStep) z

theorem StepsFetchNoLdDt.tail (h : StepsFetchNoLdDt (op :: ops) s) : StepsFetchNoLdDt ops (applyOp op s).1 :=
  fun before after split => h (op :: before) after (congrArg (op :: ·) split)

theorem not_someTickFindsDt_nil : ¬ SomeTickFindsDt [] s := by
  simp [SomeTickFindsDt]

theorem someTickFindsDt_cons :
    SomeTickFindsDt (op :: ops) s ↔ (op = .tick ∧ 0 < s.dt.toNat) ∨ SomeTickFindsDt ops (applyOp op s).1 := by
  constructor
  · rintro ⟨before, after, split, positive⟩
    rcases List.cons_eq_append_iff.1 split with ⟨rfl, first⟩ | ⟨before, rfl, later⟩
    · exact .inl ⟨(List.cons.inj first).1.symm, positive⟩
    · exact .inr ⟨before, after, later, positive⟩
  · rintro (⟨rfl, positive⟩ | ⟨before, after, later, positive⟩)
    · exact ⟨[], ops, rfl, positive⟩
    · exact ⟨op :: before, after, congrArg (op :: ·) later, positive⟩

/-- Without an FX15, DT never rises, so nothing undoes a TICK that lowers it. -/
theorem runOps_dt (h : StepsFetchNoLdDt ops s) :
    (runOps ops s).dt.toNat ≤ s.dt.toNat ∧ ((runOps ops s).dt.toNat < s.dt.toNat ↔ SomeTickFindsDt ops s) := by
  induction ops generalizing s with
  | nil => exact ⟨le_rfl, iff_of_false (lt_irrefl _) not_someTickFindsDt_nil⟩
  | cons op ops ih =>
    obtain ⟨noRise, lowers⟩ := ih h.tail
    rw [runOps, someTickFindsDt_cons]
    rcases applyOp_dt_cases h.head with ⟨found, lowered⟩ | ⟨notFound, kept⟩
    · have final := lt_of_le_of_lt noRise lowered
      exact ⟨final.le, iff_of_true final (.inl found)⟩
    · rw [kept] at noRise lowers
      exact ⟨noRise, by rw [lowers, or_iff_right notFound]⟩

theorem runOps_dt_ne (h : StepsFetchNoLdDt ops s) : (runOps ops s).dt ≠ s.dt ↔ SomeTickFindsDt ops s := by
  obtain ⟨noRise, lowers⟩ := runOps_dt h
  rw [← lowers, Ne, ← BitVec.toNat_inj]
  omega

end

/-! ### The obligation of this part -/

/-- Settles O53: each FX07 reads the DT of its own step, and without an FX15 between them DT only falls, by a TICK that finds it above 0. -/
theorem delayReadsDifferExactlyAfterATick : Obligations.DelayReadsDifferExactlyAfterATick := by
  intro x y s t v ops firstFetched firstStep noLdDt secondFetched secondStep
  obtain ⟨firstRead, dtAfterFirst⟩ := step_ldFromDt firstFetched firstStep
  obtain ⟨secondRead, -⟩ := step_ldFromDt secondFetched secondStep
  rw [secondRead, firstRead, ← dtAfterFirst]
  exact runOps_dt_ne noLdDt

end Sys2Proof.Machine

/-! ## Decoding and encoding undo each other, and the Unknown words (30_encoding.md R65 to R70) -/

namespace Sys2Proof

/-! ### From an instruction to its word and back -/

theorem wellFormed_sys {nnn : Addr12} : (Instr.sys nnn).wellFormed = true ↔ nnn ≠ 0x0E0 ∧ nnn ≠ 0x0EE := by
  rw [Instr.wellFormed, Bool.and_eq_true, bne_iff_ne, bne_iff_ne]

/-- The address of a SYS can be read back from its word. -/
theorem eq_fieldNNN_of_encode_sys {nnn : Addr12} {op : Word} (h : encode (.sys nnn) = op) : nnn = fieldNNN op := by
  rw [← h]
  exact (fieldNNN_address 0x0#4 nnn).symm

/-- The fields of an assembled word are the operands it was assembled from; of the SYS words, well-formedness leaves
out those of CLS and RET. -/
theorem decode_encode {i : Instr} (wf : i.wellFormed = true) : decode (encode i) = .ok i := by
  cases i with
  | cls | ret => rfl
  | sys nnn =>
    obtain ⟨isNotCls, isNotRet⟩ := wellFormed_sys.1 wf
    have notCls : encode (.sys nnn) ≠ 0x00E0#16 := fun h => isNotCls (eq_fieldNNN_of_encode_sys h)
    have notRet : encode (.sys nnn) ≠ 0x00EE#16 := fun h => isNotRet (eq_fieldNNN_of_encode_sys h)
    have family : fieldN1 (encode (.sys nnn)) = 0x0#4 := fieldN1_address 0x0#4 nnn
    have address : fieldNNN (encode (.sys nnn)) = nnn := fieldNNN_address 0x0#4 nnn
    simp only [decode, family, if_neg notCls, if_neg notRet, address]
  | _ => simp [decode, encode, fieldX, fieldY, fieldN]

/-- A pattern decodes to the well-formed instruction whose word it is. -/
theorem decode_pattern {i : Instr} {op : Word} (word : encode i = op) (wf : i.wellFormed = true) : decode op = .ok i :=
  word ▸ decode_encode wf

/-- The two bytes of a word decode to what the word decodes to, with no byte left. -/
theorem decodeBytes_bytesOfWord {op : Word} {i : Instr} (h : decode op = .ok i) :
    decodeBytes (bytesOfWord op) = .ok (i, []) := by
  simp only [bytesOfWord, decodeBytes, wordOfBytes_extract, h]

/-! ### From a word to its instruction and back -/

section
variable {op : Word} {a d : BitVec 4} {nn : Byte}

theorem address_of_family (family : fieldN1 op = a) : a ++ fieldNNN op = op := by
  rw [← family, address_of_fields]

theorem immediate_of_family (family : fieldN1 op = a) : a ++ toNibble (fieldX op) ++ fieldNN op = op := by
  rw [← family, fieldX, toNibble_ofNibble, immediate_of_fields]

theorem selected_immediate_of_family (family : fieldN1 op = a) (selector : fieldNN op = nn) :
    a ++ toNibble (fieldX op) ++ nn = op := by
  rw [← selector, immediate_of_family family]

theorem selected_nibbles_of_family (family : fieldN1 op = a) (selector : nibbleN op = d) :
    a ++ toNibble (fieldX op) ++ toNibble (fieldY op) ++ d = op := by
  rw [← family, ← selector, fieldX, fieldY, toNibble_ofNibble, toNibble_ofNibble, nibbles_of_fields]

end

/-- A word of the family 0 that is neither CLS nor RET is that of a well-formed SYS. -/
theorem wellFormed_sys_of_family {op : Word} (family : fieldN1 op = 0#4) (notCls : op ≠ 0x00E0) (notRet : op ≠ 0x00EE) :
    (Instr.sys (fieldNNN op)).wellFormed = true := by
  have word := address_of_family family
  refine wellFormed_sys.2 ⟨fun isCls => ?_, fun isRet => ?_⟩
  · rw [isCls] at word
    exact notCls word.symm
  · rw [isRet] at word
    exact notRet word.symm

theorem encode_decode {op : Word} {i : Instr} (h : decode op = .ok i) : encode i = op ∧ i.wellFormed = true := by
  unfold decode at h
  split at h <;> rename_i family
  -- the family 0: CLS, RET and SYS
  · split_ifs at h with isCls isRet <;> cases h
    · exact ⟨isCls.symm, rfl⟩
    · exact ⟨isRet.symm, rfl⟩
    · exact ⟨address_of_family family, wellFormed_sys_of_family family isCls isRet⟩
  -- the families 1, 2, A and B carry an address
  case h_2 | h_3 | h_11 | h_12 =>
    cases h
    exact ⟨address_of_family family, rfl⟩
  -- the families 3, 4, 6, 7 and C carry an immediate
  case h_4 | h_5 | h_7 | h_8 | h_13 =>
    cases h
    exact ⟨immediate_of_family family, rfl⟩
  -- the families 5 and 9, where N is 0
  case h_6 | h_10 =>
    split_ifs at h with selector
    cases h
    exact ⟨selected_nibbles_of_family family selector, rfl⟩
  -- the family 8: nine operations, chosen by N
  case h_9 =>
    split at h <;> cases h <;> rename_i selector <;> exact ⟨selected_nibbles_of_family family selector, rfl⟩
  -- the family D: the count stands where the others have their selector
  case h_14 =>
    cases h
    exact ⟨selected_nibbles_of_family family (toNibble_ofNibble _).symm, rfl⟩
  -- the families E and F: the forms chosen by NN
  case h_15 | h_16 =>
    split at h <;> cases h <;> rename_i selector <;> exact ⟨selected_immediate_of_family family selector, rfl⟩
  -- no other family is left
  case h_17 => cases h

/-! ### The illegal words -/

open Machine (IllegalWord)

/-- The six lists of 30_encoding.md R70, read off the fields of the word. -/
theorem illegalWord_iff_fields {op : Word} : IllegalWord op ↔
    (fieldN1 op = 0x0#4 ∧ op ≠ 0x00E0#16 ∧ op ≠ 0x00EE#16) ∨
    (fieldN1 op = 0x5#4 ∧ nibbleN op ≠ 0x0#4) ∨
    (fieldN1 op = 0x8#4 ∧ nibbleN op ∈ [0x8#4, 0x9#4, 0xA#4, 0xB#4, 0xC#4, 0xD#4, 0xF#4]) ∨
    (fieldN1 op = 0x9#4 ∧ nibbleN op ≠ 0x0#4) ∨
    (fieldN1 op = 0xE#4 ∧ fieldNN op ∉ [0x9E#8, 0xA1#8]) ∨
    (fieldN1 op = 0xF#4 ∧ fieldNN op ∉ [0x07#8, 0x0A#8, 0x15#8, 0x18#8, 0x1E#8, 0x29#8, 0x33#8, 0x55#8, 0x65#8]) := by
  have family : op.toNat / 4096 % 16 = op.toNat / 4096 := Nat.mod_eq_of_lt (by omega)
  have low : op.toNat ≤ 0x0FFF ↔ op.toNat / 4096 = 0 := by omega
  simp only [IllegalWord, ← BitVec.toNat_inj, fieldN1_toNat, nibbleN_toNat, fieldNN_toNat, BitVec.toNat_ofNat, List.mem_cons,
    List.not_mem_nil, Ne, family, low]

theorem exists_decode_sys_iff {op : Word} :
    (∃ nnn, decode op = .ok (.sys nnn)) ↔ fieldN1 op = 0x0#4 ∧ op ≠ 0x00E0#16 ∧ op ≠ 0x00EE#16 := by
  constructor
  · rintro ⟨nnn, h⟩
    refine ⟨(decode_eq_sys h).1, ?_, ?_⟩ <;> rintro rfl <;> cases h
  · rintro ⟨family, notCls, notRet⟩
    exact ⟨fieldNNN op, by simp only [decode, family, if_neg notCls, if_neg notRet]⟩

/-- The values of N that choose an operation of the family 8, and the seven others. -/
theorem nibble_cases (n : BitVec 4) :
    n ∈ [0x0#4, 0x1#4, 0x2#4, 0x3#4, 0x4#4, 0x5#4, 0x6#4, 0x7#4, 0xE#4] ∨ n ∈ [0x8#4, 0x9#4, 0xA#4, 0xB#4, 0xC#4, 0xD#4, 0xF#4] := by
  revert n
  decide

theorem exists_decode_error_iff {op : Word} : (∃ e, decode op = .error e) ↔
    (fieldN1 op = 0x5#4 ∧ nibbleN op ≠ 0x0#4) ∨
    (fieldN1 op = 0x8#4 ∧ nibbleN op ∈ [0x8#4, 0x9#4, 0xA#4, 0xB#4, 0xC#4, 0xD#4, 0xF#4]) ∨
    (fieldN1 op = 0x9#4 ∧ nibbleN op ≠ 0x0#4) ∨
    (fieldN1 op = 0xE#4 ∧ fieldNN op ∉ [0x9E#8, 0xA1#8]) ∨
    (fieldN1 op = 0xF#4 ∧ fieldNN op ∉ [0x07#8, 0x0A#8, 0x15#8, 0x18#8, 0x1E#8, 0x29#8, 0x33#8, 0x55#8, 0x65#8]) := by
  unfold decode
  split <;> rename_i family
  case h_1 => split_ifs <;> simp [family]
  -- the families 5 and 9
  case h_6 | h_10 => split_ifs with selector <;> simp [family, selector]
  -- the family 8
  case h_9 =>
    have selectors := nibble_cases (nibbleN op)
    split <;> simp_all
  -- the families E and F
  case h_15 | h_16 => split <;> simp_all
  -- no nibble is left for another family
  case h_17 =>
    have families := nibble_cases (fieldN1 op)
    simp_all
  -- every word of the other families is a form
  all_goals simp [family]

theorem classify_eq_none_iff_illegalWord {op : Word} : classify op = none ↔ IllegalWord op := by
  rw [classify_eq_none, exists_decode_error_iff, exists_decode_sys_iff, illegalWord_iff_fields, or_comm]

theorem classify_eq_some {op : Word} {i : Instr} : classify op = some i ↔ decode op = .ok i ∧ i.hasEffect = true := by
  cases hd : decode op with
  | error e => simp [classify, hd]
  | ok j =>
    simp only [classify, hd, Option.ite_none_right_eq_some, Option.some.injEq, Except.ok.injEq]
    constructor
    · rintro ⟨effect, rfl⟩
      exact ⟨rfl, effect⟩
    · rintro ⟨rfl, effect⟩
      exact ⟨effect, rfl⟩

/-! ### Counting the illegal words -/

/-- Whether the word of a high and a low byte is illegal. -/
def illegalBytes (hi lo : Nat) : Bool :=
  match hi / 16 with
  | 0x0 => !(hi == 0 && (lo == 0xE0 || lo == 0xEE))
  | 0x5 => lo % 16 != 0
  | 0x8 => [0x8, 0x9, 0xA, 0xB, 0xC, 0xD, 0xF].contains (lo % 16)
  | 0x9 => lo % 16 != 0
  | 0xE => !([0x9E, 0xA1].contains lo)
  | 0xF => !([0x07, 0x0A, 0x15, 0x18, 0x1E, 0x29, 0x33, 0x55, 0x65].contains lo)
  | _ => false

theorem illegalWord_ofNat {hi lo : Nat} (hhi : hi < 256) (hlo : lo < 256) :
    IllegalWord (BitVec.ofNat 16 (256 * hi + lo)) ↔ illegalBytes hi lo = true := by
  have word : (256 * hi + lo) % 65536 = 256 * hi + lo := Nat.mod_eq_of_lt (by omega)
  have family : (256 * hi + lo) / 4096 = hi / 16 := by omega
  have nn : (256 * hi + lo) % 256 = lo := by omega
  have n : (256 * hi + lo) % 16 = lo % 16 := by omega
  have low : 256 * hi + lo ≤ 0x0FFF ↔ hi / 16 = 0 := by omega
  simp only [IllegalWord, BitVec.toNat_ofNat, Nat.reducePow, word, family, nn, n, low]
  unfold illegalBytes
  split <;> simp_all
  omega

/-- How many words with the high byte `hi` are illegal. -/
def illegalInRow (hi : Nat) : Nat :=
  match hi / 16 with
  | 0x0 => if hi = 0 then 254 else 256
  | 0x5 => 240
  | 0x8 => 112
  | 0x9 => 240
  | 0xE => 254
  | 0xF => 247
  | _ => 0

theorem countP_illegalBytes (hi : Nat) : (List.range 256).countP (illegalBytes hi) = illegalInRow hi := by
  unfold illegalBytes illegalInRow
  split
  case h_1 =>
    by_cases first : hi = 0
    · subst first
      decide +kernel
    · have none : (hi == 0) = false := beq_false_of_ne first
      simp [first, none]
  case h_7 => simp
  all_goals decide +kernel

section
variable {hi : Nat} (isByte : hi < 256)
include isByte

theorem countP_classify_isNone :
    ((List.range 256).countP fun lo => (classify (BitVec.ofNat 16 (256 * hi + lo))).isNone) = illegalInRow hi := by
  rw [← countP_illegalBytes]
  refine List.countP_congr fun lo hlo => ?_
  rw [Option.isNone_iff_eq_none, classify_eq_none_iff_illegalWord, illegalWord_ofNat isByte (List.mem_range.1 hlo)]

theorem countP_classify_isSome :
    ((List.range 256).countP fun lo => (classify (BitVec.ofNat 16 (256 * hi + lo))).isSome) = 256 - illegalInRow hi := by
  have both := List.length_eq_countP_add_countP (fun lo => (classify (BitVec.ofNat 16 (256 * hi + lo))).isNone) (l := List.range 256)
  rw [countP_classify_isNone isByte, List.length_range] at both
  have others : ∀ o : Option Instr, (decide ¬ o.isNone = true) = o.isSome := by rintro (_ | _) <;> rfl
  simp only [others] at both
  omega

end

/-! ### The obligations of this part -/

/-- Settles O1: decoding undoes encoding on the word, and the two bytes are the word's. -/
theorem encodeThenDecodeIsIdentity : Obligations.EncodeThenDecodeIsIdentity :=
  fun _ wf => ⟨decode_encode wf, decodeBytes_bytesOfWord (decode_encode wf)⟩

/-- Settles O2: each branch of the decode procedure reads fields that make up the whole word. -/
theorem decodeThenEncodeIsIdentity : Obligations.DecodeThenEncodeIsIdentity :=
  fun _ _ => encode_decode

/-- Settles O3: each pattern is the word of its form, so that it decodes to it. -/
theorem everyPatternDecodesToItsForm : Obligations.EveryPatternDecodesToItsForm := by
  refine ⟨⟨rfl, rfl⟩, fun nnn notCls notRet => ?_, fun nnn => ?_, fun x nn => ?_, fun x y => ?_, fun x y n => ?_, fun x => ?_⟩
  · have isSys : decode (0x0#4 ++ nnn) = .ok (.sys nnn) := decode_pattern rfl (wellFormed_sys.2 ⟨notCls, notRet⟩)
    exact ⟨isSys, classify_eq_none.2 (.inr ⟨nnn, isSys⟩)⟩
  · exact ⟨decode_pattern rfl rfl, decode_pattern rfl rfl, decode_pattern rfl rfl, decode_pattern rfl rfl⟩
  · refine ⟨?_, ?_, ?_, ?_, ?_⟩ <;> exact decode_pattern (by simp [encode]) rfl
  · refine ⟨?_, ?_, ?_, ?_, ?_, ?_, ?_, ?_, ?_, ?_, ?_⟩ <;> exact decode_pattern (by simp [encode]) rfl
  · exact decode_pattern (by simp [encode]) rfl
  · refine ⟨?_, ?_, ?_, ?_, ?_, ?_, ?_, ?_, ?_, ?_, ?_⟩ <;> exact decode_pattern (by simp [encode]) rfl

/-- Settles O4: the Unknown words, those that decode to nothing and those of SYS, are told apart by the fields that the lists name. -/
theorem unknownWordsAreTheListedOnes : Obligations.UnknownWordsAreTheListedOnes :=
  fun _ => ⟨classify_eq_none_iff_illegalWord, fun _ => classify_eq_some⟩

/-- Settles O5: the illegal words of a high byte are counted once per family, and the counts of the 256 rows added. -/
theorem illegalWordsCounted : Obligations.IllegalWordsCounted := by
  constructor
  · rw [List.map_congr_left fun hi h => countP_classify_isNone (List.mem_range.1 h)]
    decide +kernel
  · rw [List.map_congr_left fun hi h => countP_classify_isSome (List.mem_range.1 h)]
    decide +kernel

/-- Settles O6: the decoder is run on each of the words. -/
theorem sampleWordsDecode : Obligations.SampleWordsDecode := by
  unfold Obligations.SampleWordsDecode
  decide

end Sys2Proof

/-! ## The errors of a step and what the host's operations leave (60_exceptions.md R135 to R143, R158) -/

namespace Sys2Proof.Machine

/-! ### The errors of an execution -/

/-- The error an instruction raises in a state, with its cause (60_exceptions.md R135 to R138). -/
inductive ExecFault (s : State) : Instr → Fault → Prop where
  | sys (nnn : Addr12) : ExecFault s (.sys nnn) (.unknownOpcode (encode (.sys nnn)))
  | ret (empty : s.stack = []) : ExecFault s .ret .stackUnderflow
  | call (nnn : Addr12) (full : 16 ≤ s.stack.length) : ExecFault s (.call nnn) .stackOverflow
  | drw (x y : RegIdx) (n : Fin 16) (rows : n.val ≠ 0) (past : 4096 < s.i.toNat + n.val) :
    ExecFault s (.drw x y n) .memoryOutOfBounds
  | bcd (x : RegIdx) (past : 4096 < s.i.toNat + 3) : ExecFault s (.bcd x) .memoryOutOfBounds
  | store (x : RegIdx) (past : 4096 < s.i.toNat + (x.val + 1)) : ExecFault s (.store x) .memoryOutOfBounds
  | load (x : RegIdx) (past : 4096 < s.i.toNat + (x.val + 1)) : ExecFault s (.load x) .memoryOutOfBounds

section
variable {i : Instr} {s t u : State} {e : Fault}

/-- An instruction completes or raises its error; none is refused. -/
theorem exec_cases (i : Instr) (s : State) : (∃ t, exec i s = .next t) ∨ ∃ e, ExecFault s i e ∧ exec i s = .fault e := by
  cases i with
  | sys nnn => exact .inr ⟨_, .sys nnn, exec_sys nnn s⟩
  | ret =>
    rcases stack_cases s.stack with empty | ⟨l, a, top⟩
    · exact .inr ⟨_, .ret empty, exec_ret_error s empty⟩
    · exact .inl ⟨_, exec_ret_ok s top⟩
  | call nnn =>
    rcases Nat.lt_or_ge s.stack.length 16 with room | full
    · exact .inl ⟨_, exec_call_ok nnn s room⟩
    · exact .inr ⟨_, .call nnn full, exec_call_error nnn s full⟩
  | drw x y n =>
    by_cases inside : n.val = 0 ∨ s.i.toNat + n.val ≤ 4096
    · exact .inl ⟨_, exec_drw_ok x y n s inside⟩
    · have rows : n.val ≠ 0 := by omega
      have past : 4096 < s.i.toNat + n.val := by omega
      exact .inr ⟨_, .drw x y n rows past, exec_drw_error x y n s rows past⟩
  | bcd x =>
    rcases Nat.lt_or_ge 4096 (s.i.toNat + 3) with past | inside
    · exact .inr ⟨_, .bcd x past, exec_bcd_error x s past⟩
    · exact .inl ⟨_, exec_bcd_ok x s inside⟩
  | store x =>
    rcases Nat.lt_or_ge 4096 (s.i.toNat + (x.val + 1)) with past | inside
    · exact .inr ⟨_, .store x past, exec_store_error x s past⟩
    · exact .inl ⟨_, exec_store_ok x s inside⟩
  | load x =>
    rcases Nat.lt_or_ge 4096 (s.i.toNat + (x.val + 1)) with past | inside
    · exact .inr ⟨_, .load x past, exec_load_error x s past⟩
    · exact .inl ⟨_, exec_load_ok x s inside⟩
  | ldKey x =>
    cases least : s.leastKey with
    | none => exact .inl ⟨_, exec_ldKey_none x s least⟩
    | some k => exact .inl ⟨_, exec_ldKey_some x s least⟩
  | _ => exact .inl ⟨_, rfl⟩

theorem exec_eq_fault : exec i s = .fault e ↔ ExecFault s i e := by
  constructor
  · intro h
    rcases exec_cases i s with ⟨t, completes⟩ | ⟨e', cause, raised⟩
    · rw [completes] at h
      cases h
    · rw [raised] at h
      cases h
      exact cause
  · intro cause
    cases cause with
    | sys nnn => exact exec_sys nnn s
    | ret empty => exact exec_ret_error s empty
    | call nnn full => exact exec_call_error nnn s full
    | drw x y n rows past => exact exec_drw_error x y n s rows past
    | bcd x past => exact exec_bcd_error x s past
    | store x past => exact exec_store_error x s past
    | load x past => exact exec_load_error x s past

/-- The errors of an execution rest on the stack and on I alone. -/
theorem ExecFault.congr (cause : ExecFault s i e) (stack : u.stack = s.stack) (index : u.i = s.i) : ExecFault u i e := by
  cases cause with
  | sys nnn => exact .sys nnn
  | ret empty => exact .ret (stack ▸ empty)
  | call nnn full => exact .call nnn (stack ▸ full)
  | drw x y n rows past => exact .drw x y n rows (index ▸ past)
  | bcd x past => exact .bcd x (index ▸ past)
  | store x past => exact .store x (index ▸ past)
  | load x past => exact .load x (index ▸ past)

/-- The word of SYS NNN is NNN, its family being 0. -/
theorem encode_sys (nnn : Addr12) : encode (.sys nnn) = zext16 nnn := by
  apply BitVec.eq_of_toNat_eq
  rw [encode, address_toNat, BitVec.toNat_setWidth, Nat.mod_eq_of_lt (by omega)]
  simp

/-! ### The errors of a step -/

/-- A step fails in its fetch, in its decode or in its execution (60_exceptions.md R143). -/
theorem step_eq_fault : step s = .fault e ↔
    (4096 < s.pc.toNat + 2 ∧ e = .memoryOutOfBounds) ∨
    (∃ op e', s.fetch = .ok op ∧ decode op = .error e' ∧ e = .unknownOpcode op) ∨
    (∃ i, Fetched s i ∧ ExecFault s i e) := by
  constructor
  · intro h
    rcases step_cases s with ⟨past, failed⟩ | ⟨-, op, hf, ⟨i, hd, executed⟩ | ⟨e', hd, unknown⟩⟩
    · rw [failed] at h
      cases h
      exact .inl ⟨past, rfl⟩
    · exact .inr (.inr ⟨i, ⟨op, hf, hd⟩, exec_eq_fault.1 (executed ▸ h)⟩)
    · rw [unknown] at h
      cases h
      exact .inr (.inl ⟨op, e', hf, hd, rfl⟩)
  · rintro (⟨past, rfl⟩ | ⟨op, e', hf, hd, rfl⟩ | ⟨i, ⟨op, hf, hd⟩, cause⟩)
    · exact step_of_fetch_error (fetch_error past)
    · exact step_of_decode_error hf hd
    · rw [step_of_decode_ok hf hd, exec_eq_fault]
      exact cause

theorem step_memoryOutOfBounds : step s = .fault .memoryOutOfBounds ↔
    4096 ≤ s.pc.toNat + 1 ∨
    (∃ x y n, Fetched s (.drw x y n) ∧ 1 ≤ n.val ∧ 4096 < s.i.toNat + n.val) ∨
    (∃ x, Fetched s (.bcd x) ∧ 4096 < s.i.toNat + 3) ∨
    (∃ x, (Fetched s (.store x) ∨ Fetched s (.load x)) ∧ 4096 < s.i.toNat + x.val + 1) := by
  rw [step_eq_fault]
  constructor
  · rintro (⟨past, -⟩ | ⟨_, _, _, _, other⟩ | ⟨i, fetched, cause⟩)
    · exact .inl (by omega)
    · cases other
    · cases cause with
      | drw x y n rows past => exact .inr (.inl ⟨x, y, n, fetched, Nat.one_le_iff_ne_zero.2 rows, past⟩)
      | bcd x past => exact .inr (.inr (.inl ⟨x, fetched, past⟩))
      | store x past => exact .inr (.inr (.inr ⟨x, .inl fetched, past⟩))
      | load x past => exact .inr (.inr (.inr ⟨x, .inr fetched, past⟩))
  · rintro (past | ⟨x, y, n, fetched, rows, past⟩ | ⟨x, fetched, past⟩ | ⟨x, fetched | fetched, past⟩)
    · exact .inl ⟨by omega, rfl⟩
    · exact .inr (.inr ⟨_, fetched, .drw x y n (Nat.one_le_iff_ne_zero.1 rows) past⟩)
    · exact .inr (.inr ⟨_, fetched, .bcd x past⟩)
    · exact .inr (.inr ⟨_, fetched, .store x past⟩)
    · exact .inr (.inr ⟨_, fetched, .load x past⟩)

/-- The Unknown words are the illegal ones, and decode or SYS raises the error with the fetched word. -/
theorem step_unknownOpcode {op : Word} :
    step s = .fault (.unknownOpcode op) ↔ s.fetch = .ok op ∧ IllegalWord op := by
  constructor
  · intro h
    rcases step_eq_fault.1 h with ⟨-, other⟩ | ⟨op', e', hf, hd, raised⟩ | ⟨i, ⟨op', hf, hd⟩, cause⟩
    · cases other
    · cases raised
      exact ⟨hf, classify_eq_none_iff_illegalWord.1 (classify_eq_none.2 (.inl ⟨e', hd⟩))⟩
    · cases cause with
      | sys nnn =>
        rw [encode_of_decode_sys hd]
        exact ⟨hf, classify_eq_none_iff_illegalWord.1 (classify_eq_none.2 (.inr ⟨nnn, hd⟩))⟩
  · rintro ⟨hf, illegal⟩
    exact step_of_unknown hf (classify_eq_none_iff_illegalWord.2 illegal)

theorem step_stackOverflow :
    step s = .fault .stackOverflow ↔ (∃ nnn, Fetched s (.call nnn)) ∧ 16 ≤ s.stack.length := by
  rw [step_eq_fault]
  constructor
  · rintro (⟨-, other⟩ | ⟨_, _, _, _, other⟩ | ⟨i, fetched, cause⟩)
    · cases other
    · cases other
    · cases cause with
      | call nnn full => exact ⟨⟨nnn, fetched⟩, full⟩
  · rintro ⟨⟨nnn, fetched⟩, full⟩
    exact .inr (.inr ⟨_, fetched, .call nnn full⟩)

theorem step_stackUnderflow : step s = .fault .stackUnderflow ↔ Fetched s .ret ∧ s.stack = [] := by
  rw [step_eq_fault]
  constructor
  · rintro (⟨-, other⟩ | ⟨_, _, _, _, other⟩ | ⟨i, fetched, cause⟩)
    · cases other
    · cases other
    · cases cause with
      | ret empty => exact ⟨fetched, empty⟩
  · rintro ⟨fetched, empty⟩
    exact .inr (.inr ⟨_, fetched, .ret empty⟩)

/-- Fetch reads memory and PC alone. -/
theorem fetch_congr (mem : u.mem = s.mem) (pc : u.pc = s.pc) : u.fetch = s.fetch := by
  rw [State.fetch, State.fetch, mem, pc]

/-- A step's error is the same in every state with the same memory, PC, stack and I. -/
theorem step_fault_congr (h : step s = .fault e) (mem : u.mem = s.mem) (pc : u.pc = s.pc) (stack : u.stack = s.stack)
    (index : u.i = s.i) : step u = .fault e := by
  have fetch : u.fetch = s.fetch := fetch_congr mem pc
  rcases step_eq_fault.1 h with ⟨past, rfl⟩ | ⟨op, e', hf, hd, rfl⟩ | ⟨i, ⟨op, hf, hd⟩, cause⟩
  · exact step_eq_fault.2 (.inl ⟨pc ▸ past, rfl⟩)
  · exact step_eq_fault.2 (.inr (.inl ⟨op, e', fetch.trans hf, hd, rfl⟩))
  · exact step_eq_fault.2 (.inr (.inr ⟨i, ⟨op, fetch.trans hf, hd⟩, cause.congr stack index⟩))

end

/-! ### The host's other operations -/

section
variable {op : HostOp} {s : State} {e : Fault}

/-- An operation other than STEP writes the timers and the keypad at most. -/
theorem applyOp_of_ne_step (notStep : op ≠ .step) (s : State) :
    ∃ dt st keys, (applyOp op s).1 = { s with dt := dt, st := st, keys := keys } := by
  cases op with
  | step => exact absurd rfl notStep
  | tick => exact ⟨_, _, _, rfl⟩
  | press k =>
    by_cases isKey : k < 16
    · exact ⟨_, _, _, congrArg Prod.fst (applyOp_press_ok s isKey)⟩
    · exact ⟨_, _, _, congrArg Prod.fst (applyOp_press_error s (by omega))⟩
  | release k =>
    by_cases isKey : k < 16
    · exact ⟨_, _, _, congrArg Prod.fst (applyOp_release_ok s isKey)⟩
    · exact ⟨_, _, _, congrArg Prod.fst (applyOp_release_error s (by omega))⟩
  | readFb | soundActive => exact ⟨_, _, _, rfl⟩

theorem applyOp_err (h : (applyOp op s).2 = .err e) : (applyOp op s).1 = s := by
  cases op with
  | step => exact applyOp_step_err h
  | press k =>
    by_cases isKey : k < 16
    · simp [applyOp_press_ok s isKey] at h
    · rw [applyOp_press_error s (by omega)]
  | release k =>
    by_cases isKey : k < 16
    · simp [applyOp_release_ok s isKey] at h
    · rw [applyOp_release_error s (by omega)]
  | tick | readFb | soundActive => cases h

/-- Where a step fails, every operation leaves a state in which it fails with the same error. -/
theorem step_fault_applyOp (h : step s = .fault e) (op : HostOp) : step (applyOp op s).1 = .fault e := by
  by_cases isStep : op = .step
  · rw [isStep, applyOp_step_of_fault h]
    exact h
  · obtain ⟨dt, st, keys, written⟩ := applyOp_of_ne_step isStep s
    rw [written]
    exact step_fault_congr h rfl rfl rfl rfl

theorem step_fault_runOps (ops : List HostOp) (h : step s = .fault e) : step (runOps ops s) = .fault e := by
  induction ops generalizing s with
  | nil => exact h
  | cons op ops ih => exact ih (step_fault_applyOp h op)

end

/-! ### The obligations of this part -/

/-- Settles O13: an error of a step rests on memory, PC, the stack and I, which no operation changes while the step fails. -/
theorem errorRepeatsWhateverTheHostDoes : Obligations.ErrorRepeatsWhateverTheHostDoes :=
  fun _ _ ops => step_fault_runOps ops

/-- Settles O12: a failing operation ends in the state it began in. -/
theorem errorsLeaveTheStateUnchanged : Obligations.ErrorsLeaveTheStateUnchanged :=
  fun _ _ _ => applyOp_err

/-- Settles O10: a step fails in its fetch, in its decode or with the error of the instruction, and none of these is refused. -/
theorem stepAnswersNextOrItsOwnErrors : Obligations.StepAnswersNextOrItsOwnErrors := by
  intro s
  rcases step_cases s with ⟨-, failed⟩ | ⟨-, op, -, ⟨i, -, executed⟩ | ⟨-, -, unknown⟩⟩
  · exact .inr (.inl failed)
  · rw [executed]
    rcases exec_cases i s with completes | ⟨e, cause, raised⟩
    · exact .inl completes
    · rw [raised]
      cases cause <;> simp
  · exact .inr (.inr (.inl ⟨op, unknown⟩))

/-- Settles O11: the causes of the errors of the fetched instructions, gathered error by error. -/
theorem stepErrorsHaveTheListedCauses : Obligations.StepErrorsHaveTheListedCauses :=
  fun _ => ⟨step_memoryOutOfBounds, fun _ => step_unknownOpcode, step_stackOverflow, step_stackUnderflow⟩

/-- Settles O7: the phases of a step, and the host's view of its outcome. -/
theorem stepRunsTheFetchedInstruction : Obligations.StepRunsTheFetchedInstruction := by
  refine fun s => ⟨fun i fetched => ?_, fun _ => step_of_fetch_error, fun _ => step_of_unknown, fun t h => ?_,
    fun _ => applyOp_step_of_fault⟩
  · obtain ⟨op, hf, hd⟩ := fetched
    exact step_of_decode_ok hf hd
  · rw [applyOp, h, settleStep]

/-- Settles O21: SYS raises the error with its own word. -/
theorem sysAlwaysRaisesUnknownOpcode : Obligations.SysAlwaysRaisesUnknownOpcode := by
  intro nnn s
  rw [exec_sys, encode_sys]

end Sys2Proof.Machine

/-! ## What an instruction writes (10_state.md R21 to R33) -/

namespace Sys2Proof.Machine

/-! ### The frame of each update of the state -/

section
variable {w : Writes} {s t : State}

theorem Frame.refl (w : Writes) (s : State) : Frame w s s :=
  ⟨fun _ _ => rfl, fun _ => rfl, fun _ => rfl, fun _ => rfl, fun _ => rfl, fun _ => rfl, fun _ => rfl, rfl, rfl, fun _ _ => rfl⟩

theorem Frame.setPc (h : Frame w s t) (target : Word) : Frame w s (t.setPc target) := { h with }

theorem Frame.setV (h : Frame w s t) {x : RegIdx} (allowed : w.regs x = true) (b : Byte) : Frame w s (t.setV x b) :=
  { h with
    regs := fun r absent => by
      have other : r ≠ x := fun same => by simp [same, allowed] at absent
      rw [State.setV_getV, if_neg other, h.regs r absent] }

theorem Frame.setI (h : Frame w s t) {v : Word} (allowed : w.i = false → v = s.i) : Frame w s (t.setI v) :=
  { h with i := allowed }

theorem Frame.setStack (h : Frame w s t) (allowed : w.stack = true) (l : List Word) : Frame w s (t.setStack l) :=
  { h with stack := fun absent => by simp [allowed] at absent }

theorem Frame.setDt (h : Frame w s t) (allowed : w.dt = true) (b : Byte) : Frame w s (t.setDt b) :=
  { h with dt := fun absent => by simp [allowed] at absent }

theorem Frame.setSt (h : Frame w s t) (allowed : w.st = true) (b : Byte) : Frame w s (t.setSt b) :=
  { h with st := fun absent => by simp [allowed] at absent }

theorem Frame.setFb (h : Frame w s t) (allowed : w.fb = true) (fb : Framebuffer) : Frame w s (t.setFb fb) :=
  { h with fb := fun absent => by simp [allowed] at absent }

theorem Frame.afterRand (h : Frame w s t) (allowed : w.draws = true) : Frame w s t.afterRand :=
  { h with draws := fun absent => by simp [allowed] at absent }

theorem Frame.setMem (h : Frame w s t) {m : Memory} (kept : ∀ a, w.bytes a = false → m.readByte a = s.mem.readByte a) :
    Frame w s (t.setMem m) :=
  { h with bytes := kept }

theorem Frame.setLogic (h : Frame w s t) {x : RegIdx} (result : w.regs x = true)
    (flag : t.params.logicResetsVf = true → w.regs vf = true) (b : Byte) : Frame w s (t.setLogic x b) := by
  rw [State.setLogic_eq]
  split
  · next resets => exact (h.setV result b).setV (flag resets) 0
  · exact h.setV result b

theorem Frame.setRange (h : Frame w s t) (k : Nat) (bs : List Byte)
    (allowed : ∀ j, j < bs.length → w.regs (index16 (k + j)) = true) : Frame w s (t.setRange k bs) := by
  induction bs generalizing t k with
  | nil => exact h
  | cons b bs ih =>
    refine ih (h.setV (allowed 0 (by simp)) b) (k + 1) fun j hj => ?_
    rw [Nat.add_right_comm, Nat.add_assoc]
    exact allowed (j + 1) (by simpa using hj)

end

/-! ### The parts each instruction may write -/

/-- What an instruction may write besides PC, as the tables of 10_state.md have it. Of memory it says only which instructions write it. -/
def writesOf (i : Instr) (s : State) : Writes :=
  match i with
  | .sys _ | .jp _ | .jpOff _ | .seImm _ _ | .sneImm _ _ | .seReg _ _ | .sneReg _ _ | .skp _ | .sknp _ => {}
  | .cls => { fb := true }
  | .ret | .call _ => { stack := true }
  | .ldImm x _ | .addImm x _ | .ldReg x _ | .ldFromDt x | .ldKey x => { regs := fun r => r == x }
  | .or x _ | .and x _ | .xor x _ => { regs := fun r => r == x || (s.params.logicResetsVf && r == vf) }
  | .addReg x _ | .sub x _ | .subn x _ | .shr x _ | .shl x _ => { regs := fun r => r == x || r == vf }
  | .rnd x _ => { regs := fun r => r == x, draws := true }
  | .drw _ _ _ => { regs := fun r => r == vf, fb := true }
  | .ldI _ | .addI _ | .ldFont _ => { i := true }
  | .ldDt _ => { dt := true }
  | .ldSt _ => { st := true }
  | .bcd _ => { bytes := fun _ => true }
  | .store _ => { i := s.params.loadStoreIncrement != .none, bytes := fun _ => true }
  | .load x => { i := s.params.loadStoreIncrement != .none, regs := fun r => decide (r ≤ x) }

section
variable {i : Instr} {s t : State}

/-- FX55 and FX65 leave I where LOADSTORE_I_INCREMENT is none. -/
theorem rangeEndI_of_none (x : RegIdx) (h : (s.params.loadStoreIncrement != .none) = false) : s.rangeEndI x = s.i := by
  have none : s.params.loadStoreIncrement = .none := by simpa using h
  simp [State.rangeEndI, none]

theorem frame_of_exec (h : exec i s = .next t) : Frame (writesOf i s) s t := by
  have same := Frame.refl (writesOf i s) s
  cases i with
  | sys nnn => exact absurd h exec_sys_ne_next
  | jp | jpOff | seImm | sneImm | seReg | sneReg | skp | sknp =>
    cases h
    exact same.setPc _
  | cls =>
    cases h
    exact (same.setFb rfl _).setPc _
  | ret =>
    obtain ⟨l, a, -, rfl⟩ := exec_ret_next h
    exact (same.setStack rfl l).setPc a
  | call nnn =>
    obtain ⟨-, rfl⟩ := exec_call_next h
    exact (same.setStack rfl _).setPc _
  | ldImm | addImm | ldReg | ldFromDt =>
    cases h
    exact (same.setV (by simp [writesOf]) _).setPc _
  | ldKey x =>
    rcases exec_ldKey_next h with ⟨k, -, rfl⟩ | ⟨-, rfl⟩
    · exact (same.setV (by simp [writesOf]) _).setPc _
    · exact same
  | or | and | xor =>
    cases h
    exact (same.setLogic (by simp [writesOf]) (fun resets => by simp [writesOf, resets]) _).setPc _
  | addReg | sub | subn | shr | shl =>
    cases h
    exact ((same.setV (by simp [writesOf]) _).setV (by simp [writesOf]) _).setPc _
  | rnd =>
    cases h
    exact ((same.afterRand rfl).setV (by simp [writesOf]) _).setPc _
  | drw x y n =>
    obtain ⟨-, rfl⟩ := exec_drw_next h
    exact ((same.setFb rfl _).setV (by simp [writesOf]) _).setPc _
  | ldI | addI | ldFont =>
    cases h
    exact (same.setI nofun).setPc _
  | ldDt =>
    cases h
    exact (same.setDt rfl _).setPc _
  | ldSt =>
    cases h
    exact (same.setSt rfl _).setPc _
  | bcd x =>
    obtain ⟨-, rfl⟩ := exec_bcd_next h
    exact (same.setMem nofun).setPc _
  | store x =>
    obtain ⟨-, rfl⟩ := exec_store_next h
    exact ((same.setMem nofun).setI (rangeEndI_of_none x)).setPc _
  | load x =>
    obtain ⟨-, rfl⟩ := exec_load_next h
    refine ((same.setRange 0 _ fun j hj => decide_eq_true ?_).setI (rangeEndI_of_none x)).setPc _
    rw [Memory.readBytes_length] at hj
    have inRange : (0 + j) % 16 ≤ x.val := by omega
    exact inRange

/-- FX33 and FX55 are the only instructions that write memory. -/
theorem mem_of_exec (notBcd : ∀ x, i ≠ .bcd x) (notStore : ∀ x, i ≠ .store x) (h : exec i s = .next t) : t.mem = s.mem := by
  cases i with
  | bcd x => exact absurd rfl (notBcd x)
  | store x => exact absurd rfl (notStore x)
  | sys nnn => exact absurd h exec_sys_ne_next
  | ret =>
    obtain ⟨l, a, -, rfl⟩ := exec_ret_next h
    rfl
  | call nnn => simp [(exec_call_next h).2]
  | or x y | and x y | xor x y =>
    cases h
    exact State.setLogic_mem s x _
  | drw x y n => simp [(exec_drw_next h).2]
  | ldKey x =>
    rcases exec_ldKey_next h with ⟨k, -, rfl⟩ | ⟨-, rfl⟩ <;> rfl
  | load x => simp [(exec_load_next h).2]
  | _ =>
    -- every other form always completes, through writes of its own that are none of memory
    cases h
    rfl

/-! ### The listed writers -/

theorem writesOf_regs {r : RegIdx} : (writesOf i s).regs r = true ↔ mayWriteV i s.params r := by
  cases i <;> simp [writesOf, mayWriteV]

theorem writesOf_stack : (writesOf i s).stack = true ↔ i = .ret ∨ ∃ nnn, i = .call nnn := by
  cases i <;> simp [writesOf]

theorem writesOf_dt : (writesOf i s).dt = true ↔ ∃ x, i = .ldDt x := by
  cases i <;> simp [writesOf]

theorem writesOf_st : (writesOf i s).st = true ↔ ∃ x, i = .ldSt x := by
  cases i <;> simp [writesOf]

theorem writesOf_fb : (writesOf i s).fb = true ↔ i = .cls ∨ ∃ x y n, i = .drw x y n := by
  cases i <;> simp [writesOf]

theorem writesOf_draws : (writesOf i s).draws = true ↔ ∃ x nn, i = .rnd x nn := by
  cases i <;> simp [writesOf]

theorem writesOf_i : (writesOf i s).i = true ↔ (∃ nnn, i = .ldI nnn) ∨ (∃ x, i = .addI x) ∨ (∃ x, i = .ldFont x) ∨
    (s.params.loadStoreIncrement ≠ .none ∧ ((∃ x, i = .store x) ∨ ∃ x, i = .load x)) := by
  cases i <;> simp [writesOf]

/-- A part that a frame keeps unless it is allowed was allowed if it changed. -/
theorem allowed_of_changed {α : Type} {b : Bool} {old new : α} (kept : b = false → new = old) (changed : new ≠ old) : b = true :=
  Bool.of_not_eq_false (mt kept changed)

theorem mem_writers (h : exec i s = .next t) (changed : t.mem ≠ s.mem) : (∃ x, i = .bcd x) ∨ ∃ x, i = .store x := by
  by_contra neither
  obtain ⟨notBcd, notStore⟩ := not_or.1 neither
  exact changed (mem_of_exec (not_exists.1 notBcd) (not_exists.1 notStore) h)

end

/-! ### The obligation of this part -/

/-- Settles O15: what the frame of an execution does not allow did not change, and what it allows is what the tables list. -/
theorem eachPartHasOnlyItsListedWriters : Obligations.EachPartHasOnlyItsListedWriters := by
  intro i s t h
  have frame := frame_of_exec h
  exact ⟨fun r changed => writesOf_regs.1 (allowed_of_changed (frame.regs r) changed),
    fun changed => writesOf_stack.1 (allowed_of_changed frame.stack changed),
    fun changed => writesOf_dt.1 (allowed_of_changed frame.dt changed),
    fun changed => writesOf_st.1 (allowed_of_changed frame.st changed),
    fun changed => writesOf_fb.1 (allowed_of_changed frame.fb changed),
    mem_writers h,
    fun changed => writesOf_draws.1 (allowed_of_changed frame.draws changed),
    fun changed => writesOf_i.1 (allowed_of_changed frame.i changed),
    frame.keys, frame.params⟩

end Sys2Proof.Machine

/-! ## CONSTRUCT's state and the invariant of the machine (70_reset_and_hazards.md R164; 10_state.md R27; 40_control_flow.md R93, R98) -/

namespace Sys2Proof.Machine

/-! ### Addresses as numbers -/

theorem zext16_toNat (a : Addr12) : (zext16 a).toNat = a.toNat := by
  rw [BitVec.toNat_setWidth, Nat.mod_eq_of_lt (by omega)]

/-- An address and a byte add without wrapping (40_control_flow.md R98). -/
theorem zext16_add_toNat (a : Addr12) (b : Byte) : (zext16 a + b.setWidth 16).toNat = a.toNat + b.toNat := by
  rw [BitVec.toNat_add, zext16_toNat, BitVec.toNat_setWidth, Nat.mod_eq_of_lt (show b.toNat < 2 ^ 16 by omega), Nat.mod_eq_of_lt (by omega)]

/-! ### The bounds of PC and of the stack -/

section
variable {i : Instr} {s t : State}

theorem pc_add_le (fetched : s.pc.toNat + 2 ≤ 4096) {k : Word} (small : k.toNat ≤ 4) : (s.pc + k).toNat ≤ 0x10FE := by
  rw [BitVec.toNat_add]
  omega

theorem pcAfter_le (inv : s.Inv) (fetched : s.pc.toNat + 2 ≤ 4096) (i : Instr) : (pcAfter i s).toNat ≤ 0x10FE := by
  have zext_le (a : Addr12) : (zext16 a).toNat ≤ 0x10FE := by
    rw [zext16_toNat]
    omega
  cases i with
  | sys => exact inv.pcBound
  | jp nnn | call nnn => exact zext_le nnn
  | jpOff nnn =>
    rw [pcAfter_jpOff, zext16_add_toNat]
    omega
  | ret =>
    rcases stack_cases s.stack with empty | ⟨l, a, top⟩
    · simpa [pcAfter, empty] using inv.pcBound
    · have return_le : a.toNat ≤ 0x1000 := inv.returns a (by simp [top])
      rw [pcAfter_ret top]
      omega
  | seImm | sneImm | seReg | sneReg | skp | sknp | ldKey =>
    simp only [pcAfter]
    split <;> exact pc_add_le fetched (by decide)
  | _ => exact pc_add_le fetched (k := 2) (by decide)

/-- An execution keeps the stack, pops its most recent address or pushes PC + 2 where there is room. -/
theorem stack_of_exec (h : exec i s = .next t) :
    t.stack = s.stack ∨ (∃ a, s.stack = t.stack ++ [a]) ∨ (s.stack.length < 16 ∧ t.stack = s.stack ++ [s.pc + 2]) := by
  by_cases kept : t.stack = s.stack
  · exact .inl kept
  · rcases writesOf_stack.1 (allowed_of_changed (frame_of_exec h).stack kept) with rfl | ⟨nnn, rfl⟩
    · obtain ⟨l, a, top, rfl⟩ := exec_ret_next h
      exact .inr (.inl ⟨a, top⟩)
    · obtain ⟨room, rfl⟩ := exec_call_next h
      exact .inr (.inr ⟨room, rfl⟩)

theorem stack_bounds_of_exec (inv : s.Inv) (fetched : s.pc.toNat + 2 ≤ 4096) (h : exec i s = .next t) :
    t.stack.length ≤ 16 ∧ ∀ a ∈ t.stack, a.toNat ≤ 0x1000 := by
  rcases stack_of_exec h with kept | ⟨a, popped⟩ | ⟨room, pushed⟩
  · rw [kept]
    exact ⟨inv.depth, inv.returns⟩
  · have depth := inv.depth
    have returns := inv.returns
    rw [popped] at depth returns
    rw [List.length_append] at depth
    exact ⟨by omega, fun b member => returns b (List.mem_append_left _ member)⟩
  · have return_le : (s.pc + 2).toNat ≤ 0x1000 := by
      rw [BitVec.toNat_add]
      change (s.pc.toNat + 2) % 65536 ≤ 0x1000
      omega
    rw [pushed]
    refine ⟨by simpa using room, fun b member => ?_⟩
    rcases List.mem_append.1 member with before | new
    · exact inv.returns b before
    · rwa [List.mem_singleton.1 new]

/-- FX33 and FX55 write inside the 4096 bytes, through MemWrite. -/
theorem mem_wf_of_exec (wf : s.mem.wf = true) (h : exec i s = .next t) : t.mem.wf = true := by
  by_cases kept : t.mem = s.mem
  · rwa [kept]
  · rcases mem_writers h kept with ⟨x, rfl⟩ | ⟨x, rfl⟩
    · obtain ⟨inside, rfl⟩ := exec_bcd_next h
      exact Memory.wf_writeBytes wf _ _ inside
    · obtain ⟨inside, rfl⟩ := exec_store_next h
      exact Memory.wf_writeBytes wf _ _ (by rwa [State.regRange_length])

/-! ### The invariant is kept -/

theorem inv_of_exec (inv : s.Inv) (fetched : s.pc.toNat + 2 ≤ 4096) (h : exec i s = .next t) : t.Inv where
  memory := mem_wf_of_exec inv.memory h
  depth := (stack_bounds_of_exec inv fetched h).1
  returns := (stack_bounds_of_exec inv fetched h).2
  pcBound := pc_of_exec h ▸ pcAfter_le inv fetched i
  parameters := (frame_of_exec h).params ▸ inv.parameters

theorem inv_of_step (inv : s.Inv) (h : step s = .next t) : t.Inv := by
  obtain ⟨fetched, op, i, -, -, executed⟩ := step_eq_next h
  exact inv_of_exec inv fetched executed

theorem inv_of_applyOp (inv : s.Inv) (op : HostOp) : (applyOp op s).1.Inv := by
  by_cases isStep : op = .step
  · subst isStep
    cases hs : step s with
    | next t => simpa [applyOp, hs, settleStep] using inv_of_step inv hs
    | fault e => simpa [applyOp_step_of_fault hs] using inv
    | refused r => simpa [applyOp, hs, settleStep] using inv
  · obtain ⟨dt, st, keys, written⟩ := applyOp_of_ne_step isStep s
    rw [written]
    exact { inv with }

end

/-! ### The memory that CONSTRUCT leaves -/

/-- Memory before the ROM is copied: zero, with the font image when FONT_PRELOAD (70_reset_and_hazards.md R164). -/
def preloaded (p : Config.Params) : Memory :=
  if p.fontPreload then Memory.writeBytes [] p.fontBase.toNat fontImage else []

section
variable {p : Config.Params} {rom : List Byte} {s : State}

theorem constructMemory_eq (p : Config.Params) (rom : List Byte) : constructMemory p rom = (preloaded p).writeBytes 0x200 rom := rfl

theorem fontImage_length : fontImage.length = 80 := rfl

/-- The font lies below LOAD_ADDR, so inside memory (00_scope.md R8). -/
theorem font_fits (legal : p.wf) : p.fontBase.toNat + fontImage.length ≤ 4096 := by
  have below : p.fontBase.toNat + 80 ≤ 512 := legal
  rw [fontImage_length]
  omega

theorem preloaded_wf (legal : p.wf) : (preloaded p).wf = true := by
  unfold preloaded
  split
  · exact Memory.wf_writeBytes rfl _ _ (font_fits legal)
  · rfl

theorem preloaded_readByte (legal : p.wf) (a : Nat) : (preloaded p).readByte a =
    if p.fontPreload = true ∧ p.fontBase.toNat ≤ a ∧ a < p.fontBase.toNat + 80 then fontImage.getD (a - p.fontBase.toNat) 0
    else 0 := by
  unfold preloaded
  split
  · next preload =>
    rw [Memory.readByte_writeBytes rfl _ _ (font_fits legal), fontImage_length]
    simp only [preload, true_and]
    rfl
  · next noPreload =>
    rw [if_neg fun both => noPreload both.1]
    rfl

/-- CONSTRUCT answers only ROMs that fit, with the memory it builds and the parameters it is given. -/
theorem construct_eq_ok (h : construct p rom = .ok s) :
    rom.length ≤ 3584 ∧ s = { State.reset with mem := constructMemory p rom, params := p } := by
  by_cases fits : rom.length ≤ 3584
  · rw [construct_ok fits] at h
    cases h
    exact ⟨fits, rfl⟩
  · rw [construct_error (by omega)] at h
    cases h

theorem inv_of_construct (legal : p.wf) (h : construct p rom = .ok s) : s.Inv := by
  obtain ⟨fits, rfl⟩ := construct_eq_ok h
  exact {
    memory := Memory.wf_writeBytes (preloaded_wf legal) _ _ (by simp only [Config.loadAddr]; omega)
    depth := by simp [State.reset]
    returns := fun _ member => absurd member List.not_mem_nil
    pcBound := show State.reset.pc.toNat ≤ 0x10FE by decide
    parameters := legal }

end

theorem inv_reset : State.reset.Inv := inv_of_construct (p := Config.Params.default) (rom := []) (by decide) rfl

theorem inv_of_reachable {s : State} (h : Reachable s) : s.Inv := by
  induction h with
  | construct p rom s legal built => exact inv_of_construct legal built
  | op o s _ ih => exact inv_of_applyOp ih o

/-! ### The obligations of this part -/

/-- Settles O19: what the fetched instruction leaves in memory, on the stack and in PC is within the bounds. -/
theorem stepKeepsTheInvariant : Obligations.StepKeepsTheInvariant :=
  fun _ _ => inv_of_step

/-- Settles O20: CONSTRUCT makes the invariant hold and every operation keeps it. -/
theorem reachableStatesMeetTheInvariant : Obligations.ReachableStatesMeetTheInvariant :=
  fun _ => inv_of_reachable

/-- Settles O18: the state after reset is CONSTRUCT's. -/
theorem resetMeetsTheInvariant : Obligations.ResetMeetsTheInvariant := inv_reset

/-- Settles O17: CONSTRUCT writes the font and then the ROM into zero memory, and keeps every other part of the state after reset. -/
theorem constructLeavesTheResetState : Obligations.ConstructLeavesTheResetState := by
  refine ⟨fun p rom s legal built => ?_, rfl, rfl⟩
  obtain ⟨fits, rfl⟩ := construct_eq_ok built
  refine ⟨fun a => ?_, fun r => ?_, rfl, rfl, rfl, rfl, rfl, Framebuffer.get_clear, fun k => ?_, rfl⟩
  · rw [constructMemory_eq, Memory.readByte_writeBytes (preloaded_wf legal) _ _ (by omega), preloaded_readByte legal]
  · simp [State.getV, State.reset]
  · simp [State.key, State.reset]

end Sys2Proof.Machine

/-! ## Control flow (40_control_flow.md R90 to R98) -/

namespace Sys2Proof.Machine

/-! ### JP to its own address (60_exceptions.md, section 7) -/

section
variable {nnn : Addr12} {s : State}

/-- Writing to PC the address it holds changes nothing. -/
theorem exec_jp_self (h : s.pc.toNat = nnn.toNat) : exec (.jp nnn) s = .next s := by
  have target : zext16 nnn = s.pc := BitVec.eq_of_toNat_eq (by rw [zext16_toNat, h])
  rw [exec_jp, target]
  rfl

theorem applyOp_selfJump (fetched : Fetched s (.jp nnn)) (h : s.pc.toNat = nnn.toNat) : applyOp .step s = (s, .ok) := by
  obtain ⟨op, hf, hd⟩ := fetched
  rw [applyOp, step_of_decode_ok hf hd, exec_jp_self h, settleStep]

/-- A state that STEP answers with Ok and itself is one in which any number of STEPs do. -/
theorem run_of_fixed (fixed : applyOp .step s = (s, .ok)) (n : Nat) :
    SafeRun (List.replicate n .step) s ∧ runOps (List.replicate n .step) s = s := by
  induction n with
  | zero => exact ⟨trivial, rfl⟩
  | succ n ih =>
    rw [List.replicate_succ, SafeRun, runOps, fixed]
    exact ⟨⟨nofun, ih.1⟩, ih.2⟩

end

/-! ### Skips (40_control_flow.md R89) -/

/-- An instruction that advances by 4 when `c` holds and by 2 else does so, and changes nothing but PC. -/
theorem exec_skip {i : Instr} {s : State} {c : Bool} (equation : exec i s = .next (s.setPc (s.pc + if c then 4 else 2))) :
    ∃ t, exec i s = .next t ∧ (c = true → t.pc = s.pc + 4) ∧ (c = false → t.pc = s.pc + 2) ∧ Frame {} s t := by
  refine ⟨_, equation, ?_, ?_, (Frame.refl {} s).setPc _⟩
  · rintro rfl
    rfl
  · rintro rfl
    rfl

/-! ### The X of an address (40_control_flow.md R98) -/

theorem ofNibble_high {nnn : Addr12} {x : RegIdx} (h : x.val = nnn.toNat / 256) : ofNibble (nnn.extractLsb' 8 4) = x := by
  ext
  simp only [ofNibble, BitVec.extractLsb'_toNat, Nat.shiftRight_eq_div_pow, h]
  omega

/-! ### The obligations of this part -/

/-- Settles O24: the jump leaves the state as it is, so every later step makes it again. -/
theorem selfJumpRunsForever : Obligations.SelfJumpRunsForever :=
  fun _ _ fetched h n => run_of_fixed (applyOp_selfJump fetched h) n

/-- Settles O22: the pop takes the last entry, or fails on the empty stack. -/
theorem retPopsIntoPc : Obligations.RetPopsIntoPc :=
  ⟨fun s _ _ top => ⟨_, exec_ret_ok s top, rfl, rfl, frame_of_exec (exec_ret_ok s top)⟩, exec_ret_error⟩

/-- Settles O23: PC is the one part written, and a jump to its own address writes what is there. -/
theorem jpSetsPc : Obligations.JpSetsPc :=
  fun nnn s => ⟨⟨_, exec_jp nnn s, zext16_toNat nnn, frame_of_exec (exec_jp nnn s)⟩, exec_jp_self⟩

/-- Settles O25: the push has room below 16 entries, and fails at 16. -/
theorem callPushesAndJumps : Obligations.CallPushesAndJumps :=
  ⟨fun nnn s room => ⟨_, exec_call_ok nnn s room, zext16_toNat nnn, rfl, frame_of_exec (exec_call_ok nnn s room)⟩,
    fun nnn s full => exec_call_error nnn s full.ge⟩

/-- Settles O26: RET pops the address that CALL pushed. -/
theorem callThenRetComesBack : Obligations.CallThenRetComesBack := by
  intro nnn s room
  have called := exec_call_ok nnn s room
  have returned := exec_ret_ok ((s.setStack (s.stack ++ [s.pc + 2])).setPc (zext16 nnn)) (l := s.stack) (a := s.pc + 2) rfl
  exact ⟨_, _, called, returned, rfl, rfl, (Frame.refl {} s).setPc _⟩

/-- Settles O27: each is a skip, on the comparison with the immediate. -/
theorem skipOnImmediate : Obligations.SkipOnImmediate := by
  intro x nn s
  have se := exec_skip (exec_seImm x nn s)
  have sne := exec_skip (exec_sneImm x nn s)
  simp only [beq_iff_eq, beq_eq_false_iff_ne, bne_iff_ne, bne_eq_false_iff_eq] at se sne
  exact ⟨se, sne⟩

/-- Settles O28: each is a skip, on the comparison of the two registers. -/
theorem skipOnRegister : Obligations.SkipOnRegister := by
  intro x y s
  have se := exec_skip (exec_seReg x y s)
  have sne := exec_skip (exec_sneReg x y s)
  simp only [beq_iff_eq, beq_eq_false_iff_ne, bne_iff_ne, bne_eq_false_iff_eq] at se sne
  exact ⟨se, sne⟩

/-- Settles O29: the sum of an address and a byte does not wrap, and the parameter chooses the register. -/
theorem jumpWithOffset : Obligations.JumpWithOffset := by
  intro nnn s
  refine ⟨_, exec_jpOff nnn s, fun isV0 => ?_, fun isVx x hx => ?_, frame_of_exec (exec_jpOff nnn s)⟩
  · rw [State.setPc_pc, zext16_add_toNat, State.jumpOffset, isV0]
  · rw [State.setPc_pc, zext16_add_toNat, State.jumpOffset, isVx, ofNibble_high hx]

end Sys2Proof.Machine

/-! ## Registers and the ALU (41_alu.md R99 to R110) -/

namespace Sys2Proof.Machine

/-! ### A result and its flag (10_state.md R23) -/

section
variable (s : State) (x : RegIdx) (result : Byte) (flag : Bool) (target : Word)

theorem setV_setPc_getV : ((s.setV x result).setPc target).getV x = result := by simp

/-- VF is written last: the flag wins over the result. -/
theorem resultFlag_getV_vf : (((s.setResultFlag x result flag).setPc target).getV vf).toNat = if flag = true then 1 else 0 := by
  simp [flagByte_toNat]

variable {x} in
theorem resultFlag_getV_result (notVf : x ≠ vf) : ((s.setResultFlag x result flag).setPc target).getV x = result := by
  simp [notVf]

/-- VF ends as 0 where LOGIC_RESETS_VF. -/
theorem logic_getV_vf (resets : s.params.logicResetsVf = true) : ((s.setLogic x result).setPc target).getV vf = 0 := by
  simp [State.setLogic_getV, resets]

variable {x} in
theorem logic_getV_result (kept : s.params.logicResetsVf = false ∨ x ≠ vf) :
    ((s.setLogic x result).setPc target).getV x = result := by
  rcases kept with noReset | notVf
  · simp [State.setLogic_getV, noReset]
  · simp [State.setLogic_getV, notVf]

end

/-! ### The flags and the shifts as numbers -/

theorem carry_eq_true {a b : Byte} : carry a b = true ↔ 255 < a.toNat + b.toNat := decide_eq_true_iff

theorem notBorrow_eq_true {a b : Byte} : notBorrow a b = true ↔ b.toNat ≤ a.toNat := decide_eq_true_iff

/-- Subtraction of bytes is subtraction modulo 256. -/
theorem byte_sub_toInt (a b : Byte) : ((a - b).toNat : Int) = (a.toNat - b.toNat : Int) % 256 := by
  rw [BitVec.toNat_sub]
  omega

theorem shiftRight_one_toNat (b : Byte) : (b >>> 1).toNat = b.toNat / 2 := by
  rw [BitVec.toNat_ushiftRight, Nat.shiftRight_eq_div_pow]

theorem shiftLeft_one_toNat (b : Byte) : (b <<< 1).toNat = b.toNat * 2 % 256 := by
  rw [BitVec.toNat_shiftLeft, Nat.shiftLeft_eq]

theorem shiftedOutRight_toNat (b : Byte) : (if shiftedOutRight b = true then 1 else 0) = b.toNat % 2 := by
  revert b
  decide

theorem shiftedOutLeft_toNat (b : Byte) : (if shiftedOutLeft b = true then 1 else 0) = b.toNat / 128 := by
  revert b
  decide

/-- SHIFT_SOURCE chooses the byte that is shifted. -/
theorem shiftOperand_eq {s : State} {x y : RegIdx} {b : Byte}
    (source : s.params.shiftSource = .vx ∧ b = s.getV x ∨ s.params.shiftSource = .vy ∧ b = s.getV y) : s.shiftOperand x y = b := by
  rcases source with ⟨isVx, rfl⟩ | ⟨isVy, rfl⟩
  · rw [State.shiftOperand, isVx]
  · rw [State.shiftOperand, isVy]

/-! ### The obligations of this part -/

/-- Settles O30: Vx reads the immediate that was written to it. -/
theorem loadImmediate : Obligations.LoadImmediate :=
  fun x nn s => ⟨_, exec_ldImm x nn s, setV_setPc_getV s x nn _, rfl, frame_of_exec (exec_ldImm x nn s)⟩

/-- Settles O31: the sum of bytes is the sum modulo 256. -/
theorem addImmediateWithoutCarry : Obligations.AddImmediateWithoutCarry :=
  fun x nn s => ⟨_, exec_addImm x nn s, by rw [setV_setPc_getV, BitVec.toNat_add], rfl, frame_of_exec (exec_addImm x nn s)⟩

/-- Settles O32: Vx reads the byte of Vy that was written to it. -/
theorem copyRegister : Obligations.CopyRegister :=
  fun x y s => ⟨_, exec_ldReg x y s, setV_setPc_getV s x _ _, rfl, frame_of_exec (exec_ldReg x y s)⟩

/-- Settles O33: the three operations on bytes work bit by bit, and write their result in one way. -/
theorem logicOperations : Obligations.LogicOperations := by
  intro x y s
  refine ⟨⟨_, exec_or x y s, fun kept j => ?_, logic_getV_vf s x _ _, rfl, frame_of_exec (exec_or x y s)⟩,
    ⟨_, exec_and x y s, fun kept j => ?_, logic_getV_vf s x _ _, rfl, frame_of_exec (exec_and x y s)⟩,
    ⟨_, exec_xor x y s, fun kept j => ?_, logic_getV_vf s x _ _, rfl, frame_of_exec (exec_xor x y s)⟩⟩
  · rw [logic_getV_result s _ _ kept, BitVec.getLsbD_or]
  · rw [logic_getV_result s _ _ kept, BitVec.getLsbD_and]
  · rw [logic_getV_result s _ _ kept, BitVec.getLsbD_xor]

/-- Settles O34: the flag is written last, so VF is the carry with X = F too. -/
theorem addSetsCarry : Obligations.AddSetsCarry := by
  refine fun x y s => ⟨_, exec_addReg x y s, fun notVf => ?_, ?_, rfl, frame_of_exec (exec_addReg x y s)⟩
  · rw [resultFlag_getV_result s _ _ _ notVf, BitVec.toNat_add]
  · simp only [resultFlag_getV_vf, carry_eq_true]

/-- Settles O35: both are one subtraction, its operands in the two orders. -/
theorem subtractSetsNotBorrow : Obligations.SubtractSetsNotBorrow := by
  refine fun x y s => ⟨⟨_, exec_sub x y s, fun notVf => ?_, ?_, rfl, frame_of_exec (exec_sub x y s)⟩,
    ⟨_, exec_subn x y s, fun notVf => ?_, ?_, rfl, frame_of_exec (exec_subn x y s)⟩⟩
  · rw [resultFlag_getV_result s _ _ _ notVf, byte_sub_toInt]
  · simp only [resultFlag_getV_vf, notBorrow_eq_true]
  · rw [resultFlag_getV_result s _ _ _ notVf, byte_sub_toInt]
  · simp only [resultFlag_getV_vf, notBorrow_eq_true]

/-- Settles O36: the byte that SHIFT_SOURCE chooses is shifted, and the bit that falls out becomes VF. -/
theorem shiftsSetTheBitShiftedOut : Obligations.ShiftsSetTheBitShiftedOut := by
  intro x y s b source
  obtain rfl := shiftOperand_eq source
  refine ⟨⟨_, exec_shr x y s, fun notVf => ?_, ?_, rfl, frame_of_exec (exec_shr x y s)⟩,
    ⟨_, exec_shl x y s, fun notVf => ?_, ?_, rfl, frame_of_exec (exec_shl x y s)⟩⟩
  · rw [resultFlag_getV_result s _ _ _ notVf, shiftRight_one_toNat]
  · rw [resultFlag_getV_vf, shiftedOutRight_toNat]
  · rw [resultFlag_getV_result s _ _ _ notVf, shiftLeft_one_toNat]
  · rw [resultFlag_getV_vf, shiftedOutLeft_toNat]

/-- Settles O37: Vx takes the AND of one draw and the mask, whatever the draw is. -/
theorem randomIsMasked : Obligations.RandomIsMasked := by
  intro x nn s
  have stored : ((s.afterRand.setV x (s.nextRand &&& nn)).setPc (s.pc + 2)).getV x = s.nextRand &&& nn :=
    setV_setPc_getV s.afterRand x _ _
  refine ⟨_, exec_rnd x nn s, fun j => ?_, fun zero => ?_, rfl, rfl, frame_of_exec (exec_rnd x nn s)⟩
  · rw [stored, BitVec.getLsbD_and]
    rfl
  · rw [stored, zero]
    exact BitVec.and_zero

end Sys2Proof.Machine

/-! ## The index register and memory (42_index_memory.md R115 to R120; 20_memory.md, section 6) -/

namespace Sys2Proof.Machine

/-! ### I after FX55 and FX65, and the font's addresses -/

theorem rangeEndI_toNat (s : State) (x : RegIdx) : (s.rangeEndI x).toNat = (s.i.toNat + iIncrement s x) % 65536 := by
  cases increment : s.params.loadStoreIncrement <;> simp [State.rangeEndI, iIncrement, increment]
  omega

theorem fontAddress_toNat (s : State) (b : Byte) :
    (s.fontAddress (lowNibble b)).toNat = s.params.fontBase.toNat + 5 * (b.toNat % 16) := by
  rw [State.fontAddress, BitVec.toNat_add, zext16_toNat, lowNibble_val, BitVec.toNat_ofNat]
  omega

/-! ### Bytes written over a memory -/

section
variable {m : Memory} {base : Nat} {stored : List Byte}

theorem byteOver_stored {k : Nat} (h : k < stored.length) : byteOver m base stored (base + k) = stored.getD k 0 := by
  rw [byteOver, if_pos (by omega), Nat.add_sub_cancel_left]

theorem byteOver_outside {a : Nat} (h : ¬ (base ≤ a ∧ a < base + stored.length)) : byteOver m base stored a = m.readByte a :=
  if_neg h

/-- A write in bounds leaves the bytes that `byteOver` reads. -/
theorem readByte_writeBytes_eq_byteOver (wf : m.wf = true) (inside : base + stored.length ≤ 4096) (a : Nat) :
    (m.writeBytes base stored).readByte a = byteOver m base stored a :=
  Memory.readByte_writeBytes wf base stored inside a

end

/-! ### What FX33 and FX55 leave in memory -/

theorem bcdDigits_toNat (b : Byte) : (bcdDigits b).map BitVec.toNat = [b.toNat / 100, b.toNat / 10 % 10, b.toNat % 10] := by
  have hundreds : b.toNat / 100 % 256 = b.toNat / 100 := Nat.mod_eq_of_lt (by omega)
  have tens : b.toNat / 10 % 10 % 256 = b.toNat / 10 % 10 := Nat.mod_eq_of_lt (by omega)
  have ones : b.toNat % 10 % 256 = b.toNat % 10 := Nat.mod_eq_of_lt (by omega)
  simp [bcdDigits, hundreds, tens, ones]

/-- A list of bytes with the digits of `b` is the one that FX33 stores. -/
theorem eq_bcdDigits {b : Byte} {stored : List Byte}
    (digits : stored.map BitVec.toNat = [b.toNat / 100, b.toNat / 10 % 10, b.toNat % 10]) : stored = bcdDigits b :=
  List.map_injective_iff.2 (fun _ _ => BitVec.eq_of_toNat_eq) (digits.trans (bcdDigits_toNat b).symm)

section
variable {x : RegIdx} {s t : State}

theorem readByte_of_exec_bcd (wf : s.mem.wf = true) (h : exec (.bcd x) s = .next t) (a : Nat) :
    t.mem.readByte a = byteOver s.mem s.i.toNat (bcdDigits (s.getV x)) a := by
  obtain ⟨inside, rfl⟩ := exec_bcd_next h
  exact readByte_writeBytes_eq_byteOver wf inside a

theorem readByte_of_exec_store (wf : s.mem.wf = true) (h : exec (.store x) s = .next t) (a : Nat) :
    t.mem.readByte a = byteOver s.mem s.i.toNat (s.regRange x) a := by
  obtain ⟨inside, rfl⟩ := exec_store_next h
  exact readByte_writeBytes_eq_byteOver wf (by rwa [State.regRange_length]) a

/-- One digit that FX33 stored, as a number. -/
theorem digit_of_exec_bcd (wf : s.mem.wf = true) (h : exec (.bcd x) s = .next t) {k : Nat} (isDigit : k < 3) :
    (t.mem.readByte (s.i.toNat + k)).toNat =
      [(s.getV x).toNat / 100, (s.getV x).toNat / 10 % 10, (s.getV x).toNat % 10].getD k 0 := by
  rw [readByte_of_exec_bcd wf h, byteOver_stored isDigit, ← bcdDigits_toNat]
  exact (List.getD_map _ _ BitVec.toNat).symm

/-- FX65 loads the byte at I + r into register r, for the registers of its range. -/
theorem load_getV (s : State) (x : RegIdx) (w target : Word) {r : RegIdx} (h : r ≤ x) :
    (((s.setRange 0 (s.mem.readBytes s.i.toNat (x.val + 1))).setI w).setPc target).getV r = s.mem.readByte (s.i.toNat + r.val) := by
  have inRange : r.val < x.val + 1 := Nat.lt_succ_of_le h
  rw [State.setPc_getV, State.setI_getV, State.setRange_getV _ _ _ (by rw [Memory.readBytes_length]; omega), Memory.readBytes_length,
    if_pos (by omega), Nat.sub_zero, Memory.readBytes_getD _ _ _ _ inRange]

end

/-! ### The obligations of this part -/

/-- Settles O44: a fetch reads memory, and memory reads the stored bytes over the older ones. -/
theorem storedBytesAreFetched : Obligations.StoredBytesAreFetched := by
  intro x s t u stored wf storing mem inside
  have bytes : ∀ a, t.mem.readByte a = byteOver s.mem s.i.toNat stored a := by
    rcases storing with ⟨executed, length, entries⟩ | ⟨executed, digits⟩
    · rw [State.eq_regRange length entries]
      exact readByte_of_exec_store wf executed
    · rw [eq_bcdDigits digits]
      exact readByte_of_exec_bcd wf executed
  rw [fetch_ok (by omega), mem, bytes, bytes]

/-- Settles O41: the three digits stand at I, and the bytes outside are the older ones. -/
theorem bcdStoresThreeDigits : Obligations.BcdStoresThreeDigits := by
  refine fun x s => ⟨fun wf inside => ?_, exec_bcd_error x s⟩
  have executed := exec_bcd_ok x s inside
  exact ⟨_, executed, digit_of_exec_bcd wf executed (k := 0) (by decide), digit_of_exec_bcd wf executed (k := 1) (by decide),
    digit_of_exec_bcd wf executed (k := 2) (by decide), rfl,
    { frame_of_exec executed with
      bytes := fun a outside =>
        (readByte_of_exec_bcd wf executed a).trans (byteOver_outside (of_decide_eq_false outside)) }⟩

/-- Settles O42: the registers of the range stand at I, and the bytes outside are the older ones. -/
theorem storeRegisterRange : Obligations.StoreRegisterRange := by
  refine fun x s => ⟨fun wf inside => ?_, exec_store_error x s⟩
  have executed := exec_store_ok x s inside
  refine ⟨_, executed, fun r inRange => ?_, rangeEndI_toNat s x, rfl,
    { frame_of_exec executed with
      i := nofun
      bytes := fun a outside => ?_ }⟩
  · have stored : r.val < (s.regRange x).length := by
      rw [State.regRange_length]
      exact Nat.lt_succ_of_le inRange
    rw [readByte_of_exec_store wf executed, byteOver_stored stored, State.regRange_getD s x r inRange]
  · rw [readByte_of_exec_store wf executed, byteOver_outside]
    rw [State.regRange_length]
    exact of_decide_eq_false outside

/-- Settles O43: each register of the range takes its byte, and memory is only read. -/
theorem loadRegisterRange : Obligations.LoadRegisterRange := by
  refine fun x s => ⟨fun inside => ?_, exec_load_error x s⟩
  have executed := exec_load_ok x s inside
  exact ⟨_, executed, fun r => load_getV s x _ _, rangeEndI_toNat s x, rfl, { frame_of_exec executed with i := nofun }⟩

/-- Settles O38: I takes the address as a number of 16 bits. -/
theorem loadIndex : Obligations.LoadIndex :=
  fun nnn s => ⟨_, exec_ldI nnn s, zext16_toNat nnn, rfl, frame_of_exec (exec_ldI nnn s)⟩

/-- Settles O39: the sum of words is the sum modulo 65536. -/
theorem addToIndex : Obligations.AddToIndex :=
  fun x s => ⟨_, exec_addI x s, by simp, rfl, frame_of_exec (exec_addI x s)⟩

/-- Settles O40: the font's address does not wrap. -/
theorem indexToFontGlyph : Obligations.IndexToFontGlyph :=
  fun x s => ⟨_, exec_ldFont x s, fontAddress_toNat s (s.getV x), rfl, frame_of_exec (exec_ldFont x s)⟩

end Sys2Proof.Machine

/-! ## Sprites: what a draw inverts, and drawing twice (43_display.md R123, R124) -/

namespace Sys2Proof.Machine

/-! ### A draw and the sprite's bits -/

/-- Some set bit of the sprite at I, of `n` rows, falls on the pixel when it is drawn at the coordinates in Vx and Vy. -/
def State.SpriteBit (s : State) (x y : RegIdx) (n : Nat) (px : Fin 64) (py : Fin 32) : Prop :=
  SpriteBitAt (s.mem.readBytes s.i.toNat n) ((s.getV x).toNat % 64) ((s.getV y).toNat % 32) px py

section
variable (s : State) (x y : RegIdx) (n : Fin 16)

theorem drawn_pixel (px : Fin 64) (py : Fin 32) :
    (s.SpriteBit x y n.val px py → (s.drawn x y n.val).1.get px py = !s.fb.get px py) ∧
    (¬ s.SpriteBit x y n.val px py → (s.drawn x y n.val).1.get px py = s.fb.get px py) :=
  (drawRows_spec _ _ _ (s.fb, false) (by rw [Memory.readBytes_length]; omega)).1 px py

theorem drawn_flag : (s.drawn x y n.val).2 = true ↔ ∃ px py, s.SpriteBit x y n.val px py ∧ s.fb.get px py = true := by
  rw [State.drawn, (drawRows_spec _ _ _ (s.fb, false) (by rw [Memory.readBytes_length]; omega)).2]
  simp only [Bool.false_eq_true, false_or]
  rfl

/-- VF takes the collision flag. -/
theorem draw_getV_vf (fb : Framebuffer) (flag : Bool) (target : Word) :
    (((s.setFb fb).setV vf (flagByte flag)).setPc target).getV vf = flagByte flag := by
  simp

end

/-! ### The same sprite again -/

section
variable {s t : State} {x y x' y' : RegIdx} {n : Fin 16}

/-- The same rows at the same coordinates have the same bits. -/
theorem spriteBit_congr (index : t.i = s.i) (bytes : ∀ a, t.mem.readByte a = s.mem.readByte a)
    (column : (t.getV x').toNat % 64 = (s.getV x).toNat % 64) (row : (t.getV y').toNat % 32 = (s.getV y).toNat % 32)
    (n : Nat) : t.SpriteBit x' y' n = s.SpriteBit x y n := by
  have rows : t.mem.readBytes t.i.toNat n = s.mem.readBytes s.i.toNat n := by
    simp only [Memory.readBytes, index, bytes]
  unfold State.SpriteBit
  rw [rows, column, row]

variable (same : t.SpriteBit x' y' n.val = s.SpriteBit x y n.val) (fb : t.fb = (s.drawn x y n.val).1)
include same fb

/-- A pixel inverted twice is as it was. -/
theorem drawn_twice : (t.drawn x' y' n.val).1 = s.fb := by
  apply Framebuffer.ext_get
  intro px py
  obtain ⟨inverted, kept⟩ := drawn_pixel s x y n px py
  obtain ⟨inverted', kept'⟩ := drawn_pixel t x' y' n px py
  rw [same, fb] at inverted' kept'
  by_cases bit : s.SpriteBit x y n.val px py
  · rw [inverted' bit, inverted bit, Bool.not_not]
  · rw [kept' bit, kept bit]

/-- The second draw collides where the first set a pixel. -/
theorem drawn_twice_flag :
    (t.drawn x' y' n.val).2 = true ↔ ∃ px py, s.SpriteBit x y n.val px py ∧ s.fb.get px py = false := by
  rw [drawn_flag, same, fb]
  refine exists₂_congr fun px py => and_congr_right fun bit => ?_
  rw [(drawn_pixel s x y n px py).1 bit, Bool.not_eq_true']

end

/-! ### The obligations of this part -/

/-- Settles O46: the draw's pixels and its flag are those of the sprite's bits, and nothing else is written. -/
theorem drawXorsTheSprite : Obligations.DrawXorsTheSprite := by
  refine fun x y n s => ⟨fun inside => ?_, exec_drw_error x y n s⟩
  have executed := exec_drw_ok x y n s inside
  refine ⟨_, executed, drawn_pixel s x y n, fun collision => ?_, fun noCollision => ?_, rfl, frame_of_exec executed⟩
  · rw [draw_getV_vf, flagByte_eq_one]
    exact (drawn_flag s x y n).2 collision
  · rw [draw_getV_vf, flagByte_eq_zero, ← Bool.not_eq_true, drawn_flag]
    exact noCollision

/-- Settles O48: the second draw has the bits of the first, and inverts each of their pixels again. -/
theorem secondDrawRestoresTheScreen : Obligations.SecondDrawRestoresTheScreen := by
  intro x y x' y' n s t t' first fb index bytes column row
  obtain ⟨inside, rfl⟩ := exec_drw_next first
  have same := spriteBit_congr index bytes column row n.val
  have executed := exec_drw_ok x' y' n t' (index ▸ inside)
  refine ⟨_, executed, drawn_twice same fb, ?_⟩
  rw [draw_getV_vf, flagByte_eq_one]
  exact drawn_twice_flag same fb

end Sys2Proof.Machine

/-! ## The keypad, the timers and the wait for a key (44_keypad_timers.md R128 to R134; 60_exceptions.md R152, R153) -/

namespace Sys2Proof.Machine

/-! ### Key numbers -/

theorem lowNibble_eq {k : Fin 16} {b : Byte} (h : k.val = b.toNat % 16) : lowNibble b = k :=
  Fin.ext ((lowNibble_val b).trans h.symm)

/-- A key's number fits a byte. -/
theorem keyByte_toNat (k : Fin 16) : (BitVec.ofNat 8 k.val).toNat = k.val := by
  rw [BitVec.toNat_ofNat, Nat.mod_eq_of_lt (by omega)]

/-! ### PRESS and RELEASE -/

section
variable (s : State) (k : Fin 16)

theorem applyOp_press_key : applyOp (.press k.val) s = (s.setKey k true, .ok) := applyOp_press_ok s k.isLt

theorem applyOp_release_key : applyOp (.release k.val) s = (s.setKey k false, .ok) := applyOp_release_ok s k.isLt

/-- Writing a key what it holds changes nothing. -/
theorem setKey_eq_self {p : Bool} (h : s.key k = p) : s.setKey k p = s := by
  rw [State.setKey, ← h]
  exact congrArg (fun keys => { s with keys := keys }) (Vector.set_getElem_self k.isLt)

theorem setKey_setKey (p : Bool) : (s.setKey k p).setKey k p = s.setKey k p :=
  setKey_eq_self _ k (by simp)

end

/-! ### Waiting at an FX0A (70_reset_and_hazards.md, section 3) -/

/-- FX0A is fetched and no key is pressed. -/
structure WaitsForKey (x : RegIdx) (s : State) : Prop where
  fetched : Fetched s (.ldKey x)
  released : ∀ k, s.key k = false

section
variable {x : RegIdx} {s : State}

/-- The wait does not look at the timers. -/
theorem WaitsForKey.setTimers (h : WaitsForKey x s) (dt st : Byte) : WaitsForKey x ((s.setDt dt).setSt st) :=
  ⟨h.fetched, h.released⟩

theorem WaitsForKey.step_eq (h : WaitsForKey x s) : step s = .next s := by
  obtain ⟨op, hf, hd⟩ := h.fetched
  rw [step_of_decode_ok hf hd, exec_ldKey_none x s (leastKey_eq_none.2 h.released)]

/-- While it waits, an operation other than PRESS writes the timers at most. -/
theorem applyOp_of_waits (h : WaitsForKey x s) {op : HostOp} (notPress : ∀ k, op ≠ .press k) :
    ∃ dt st, (applyOp op s).1 = (s.setDt dt).setSt st := by
  cases op with
  | press k => exact absurd rfl (notPress k)
  | step =>
    refine ⟨s.dt, s.st, ?_⟩
    rw [applyOp, h.step_eq]
    rfl
  | tick => exact ⟨_, _, rfl⟩
  | release k =>
    refine ⟨s.dt, s.st, ?_⟩
    by_cases isKey : k < 16
    · rw [applyOp_release_ok s isKey]
      exact setKey_eq_self s ⟨k, isKey⟩ (h.released _)
    · rw [applyOp_release_error s (by omega)]
      rfl
  | readFb | soundActive => exact ⟨s.dt, s.st, rfl⟩

theorem runOps_of_waits (h : WaitsForKey x s) {ops : List HostOp} (noPress : ∀ op ∈ ops, ∀ k, op ≠ .press k) :
    ∃ dt st, runOps ops s = (s.setDt dt).setSt st := by
  induction ops generalizing s with
  | nil => exact ⟨s.dt, s.st, rfl⟩
  | cons op ops ih =>
    obtain ⟨dt, st, first⟩ := applyOp_of_waits h (noPress op List.mem_cons_self)
    obtain ⟨dt', st', rest⟩ := ih (h.setTimers dt st) fun o member => noPress o (List.mem_cons_of_mem op member)
    exact ⟨dt', st', by rw [runOps, first, rest]; rfl⟩

/-- The pressed key is the only one, so the least, and a step stores it. -/
theorem press_step_of_waits (h : WaitsForKey x s) (k : Fin 16) :
    runOps [.press k.val, .step] s = ((s.setKey k true).setV x (BitVec.ofNat 8 k.val)).setPc (s.pc + 2) := by
  obtain ⟨op, hf, hd⟩ := h.fetched
  have least : (s.setKey k true).leastKey = some k := by
    refine leastKey_eq_some.2 ⟨by simp, fun j below => ?_⟩
    rw [State.setKey_key, if_neg (ne_of_lt below), h.released]
  have stepped : step (s.setKey k true) = .next (((s.setKey k true).setV x (BitVec.ofNat 8 k.val)).setPc (s.pc + 2)) := by
    have fetch : (s.setKey k true).fetch = .ok op := (fetch_congr rfl rfl).trans hf
    rw [step_of_decode_ok fetch hd, exec_ldKey_some x _ least, State.setKey_pc]
  rw [runOps, runOps, runOps, applyOp_press_key, applyOp, stepped, settleStep]

end

/-! ### The obligations of this part -/

/-- Settles O51: while it waits only the timers move, and the key pressed then is the least one. -/
theorem keyWaitHoldsUntilAPress : Obligations.KeyWaitHoldsUntilAPress := by
  intro x s ops fetched released noPress
  have waits : WaitsForKey x s := ⟨fetched, released⟩
  obtain ⟨dt, st, ran⟩ := runOps_of_waits waits noPress
  have stillWaits := waits.setTimers dt st
  simp only [ran]
  refine ⟨⟨rfl, rfl, rfl, rfl, rfl, rfl, rfl, _, stillWaits.step_eq⟩, fun k => ?_⟩
  rw [press_step_of_waits stillWaits k]
  exact ⟨by rw [setV_setPc_getV, keyByte_toNat], rfl⟩

/-- Settles O49: each is a skip, on the key that the low nibble names. -/
theorem skipOnKey : Obligations.SkipOnKey := by
  intro x s k low
  have named := lowNibble_eq low
  refine ⟨⟨_, exec_skp x s, ?_, frame_of_exec (exec_skp x s)⟩, ⟨_, exec_sknp x s, ?_, frame_of_exec (exec_sknp x s)⟩⟩
  · rw [State.setPc_pc, named]
  · rw [State.setPc_pc, named]
    cases s.key k <;> rfl

/-- Settles O50: the least pressed key is the one that is found, and with none found the state stays. -/
theorem keyWait : Obligations.KeyWait := by
  refine fun x s => ⟨fun k pressed least => ?_, fun released => exec_ldKey_none x s (leastKey_eq_none.2 released)⟩
  have executed := exec_ldKey_some x s (leastKey_eq_some.2 ⟨pressed, least⟩)
  exact ⟨_, executed, by rw [setV_setPc_getV, keyByte_toNat], rfl, frame_of_exec executed⟩

/-- Settles O52: Vx reads the DT that was written to it. -/
theorem readDelayTimer : Obligations.ReadDelayTimer :=
  fun x s => ⟨_, exec_ldFromDt x s, setV_setPc_getV s x _ _, rfl, frame_of_exec (exec_ldFromDt x s)⟩

/-- Settles O54: each timer takes the byte, and SOUND_ACTIVE reads the ST that was written. -/
theorem setTimers : Obligations.SetTimers :=
  fun x s => ⟨⟨_, exec_ldDt x s, rfl, rfl, frame_of_exec (exec_ldDt x s)⟩,
    ⟨_, exec_ldSt x s, rfl, soundActive_iff _, rfl, frame_of_exec (exec_ldSt x s)⟩⟩

/-- Settles O57: above 15 the call fails, and from 0 to 15 it writes one key, the second time what it holds. -/
theorem pressAndReleaseSetOneKey : Obligations.PressAndReleaseSetOneKey := by
  refine ⟨fun k s above => ⟨applyOp_press_error s above, applyOp_release_error s above⟩, fun k s => ?_⟩
  simp only [applyOp_press_key, applyOp_release_key, setKey_setKey]
  exact ⟨trivial, trivial, s.setKey_key k true, s.setKey_key k false, rfl, rfl, trivial, trivial⟩

end Sys2Proof.Machine
